-- ==== Sys2Proof/Word.lean ====
section
/-! DEFINITION. The widths of the engine's data (00_scope R7, R8): bytes, hash words, command words. -/

namespace Sys2Proof

/-- One message or buffer byte (DATA_BITS of R7). -/
abbrev Byte := BitVec 8

/-- A hash word, the tag, a response's data (WORD_BITS and TAG_BITS of R7). -/
abbrev Word := BitVec 32

/-- A command word (CMD_BITS of R7). -/
abbrev CmdWord := BitVec 16

end Sys2Proof
end

