-- ==== Sys2Proof/Syntax.lean ====
section
/-! DEFINITION. The seven commands (30_encoding R56), the fields of a command word (R52, R53), the
fault causes (60_exceptions R98) and the assembler's lines (30_encoding R62, R63). -/

namespace Sys2Proof

/-- The seven commands of command set v1 (R56). The one operand is the message byte of PUSH (R57). -/
inductive Instr where
  /-- NOP, R95: do nothing. -/
  | nop
  /-- INIT, R87: open a new message. -/
  | init
  /-- PUSH b, R88: append one byte to the open message. -/
  | push (b : Byte)
  /-- FINAL, R90: close the message and compute the tag. -/
  | final
  /-- RDTAG, R93: read the tag. -/
  | rdtag
  /-- RDSTAT, R94: read the status word. -/
  | rdstat
  /-- RST, R96: soft reset. -/
  | rst
  deriving DecidableEq, Repr

/-- The fields of a command word (R53): `op` is bits 15:12, `rsvd` bits 11:8, `imm` bits 7:0. -/
structure Fields where
  op : BitVec 4
  rsvd : BitVec 4
  imm : Byte
  deriving DecidableEq, Repr

/-- The values CAUSE can hold, R98; "a model's CAUSE type has exactly five values" (93 U9). -/
inductive Cause where
  /-- NONE (0): the engine is not in FAULT. -/
  | none
  /-- ILLOP (1), R99: a reserved opcode. -/
  | illop
  /-- ILLFLD (2), R100: a field that must be zero is not. -/
  | illfld
  /-- SEQ (3), R101: a command that is not legal in the current phase. -/
  | seq
  /-- LENOVF (4), R102: a PUSH at the length limit. -/
  | lenovf
  deriving DecidableEq, Repr

/-- What a command word decodes to (R60): a command, or illegal with the cause R58 gives it. -/
inductive Decoded where
  | command (i : Instr)
  | illegal (c : Cause)
  deriving DecidableEq, Repr

/-- One line of an assembler program, as written (R62, R63): operands are not yet checked. -/
inductive AsmLine where
  /-- A blank line or a comment. -/
  | blank
  | nop
  | init
  /-- `PUSH b`. -/
  | push (b : Nat)
  | final
  | rdtag
  | rdstat
  | rst
  /-- `.word w`: the word as written. -/
  | word (w : Nat)
  /-- `PUSHS "text"`: the character codes of the text. -/
  | pushs (text : List Nat)
  /-- `PUSHX h0h1...`: the values of the hexadecimal digits. -/
  | pushx (digits : List Nat)
  /-- `PUSHN b, n`. -/
  | pushn (b n : Nat)
  /-- `CHECKSUM "text"`. -/
  | checksumText (text : List Nat)
  /-- `CHECKSUM h0h1...`. -/
  | checksumHex (digits : List Nat)
  deriving DecidableEq, Repr

end Sys2Proof
end

