-- ==== Sys2Proof/Machine/State.lean ====
section
/-! DEFINITION. The engine's state between two commands (10_state R16 to R23), the host interface
beside it, the reasons a run can stop, and the state after reset (R30, R114). -/

namespace Sys2Proof.Machine

/-- PHASE, R16: where the engine is in a transaction. -/
inductive Phase where
  /-- IDLE (0): no message in progress since reset or RST. -/
  | idle
  /-- ABSORB (1): a message is open. -/
  | absorb
  /-- DONE (2): the message is closed and TAG holds its tag. -/
  | done
  /-- FAULT (3): a command was rejected. -/
  | fault
  deriving DecidableEq, Repr

/-- H[0] to H[7], R17; also any eight state words of the compression function. -/
abbrev HashState := Vector Word 8

/-- BUF[0] to BUF[63], R18; also any 64-byte block. -/
abbrev Block := Vector Byte 64

/-- A response, R54: the error bit and the 32-bit data. -/
structure Response where
  err : Bool
  data : Word
  deriving DecidableEq, Repr

/-- What the host or the platform does next between two commands (R13): issue a command word (R51), or
apply hardware reset (R114). -/
inductive HostAction where
  | command (w : CmdWord)
  | hardwareReset
  deriving DecidableEq, Repr

/-- The engine has no reason to stop: "every one of the 65,536 words has exactly one defined behaviour
in every phase" (R59). A fault of the spec (R97) is a next state in phase FAULT. Log entry 4. -/
inductive Fault where
  deriving DecidableEq, Repr

/-- Why the model gives no meaning. -/
inductive Refusal where
  /-- Raised by an arm of `exec` for a command with no meaning yet; no arm raises it. Safe. -/
  | notModelled (mnemonic : String)
  /-- Raised by the port layer when the host changes or withdraws a command word it has offered and
  that is not accepted yet: "the spec defines the engine only for hosts that keep the handshake"
  (93 U14, R51). Safe. Log entry 6. -/
  | handshakeBroken
  deriving DecidableEq, Repr

/-- The machine. The first eight fields are the engine's 889 bits (R16 to R23); the last two are the
model's own, the host interface (log entries 1 and 2). -/
structure State where
  /-- PHASE, R16. -/
  phase : Phase
  /-- H[0..7], R17. -/
  h : HashState
  /-- BUF[0..63], R18. -/
  buf : Block
  /-- CNT, R19. -/
  cnt : BitVec 6
  /-- LEN, R20. -/
  len : BitVec 61
  /-- TAG, R21. -/
  tag : Word
  /-- CAUSE, R22. -/
  cause : Cause
  /-- FCMD, R23. -/
  fcmd : CmdWord
  /-- The model's own: what the host and the platform do next, in order. Log entry 1. -/
  pending : List HostAction
  /-- The model's own: the response stream so far, oldest first. Log entry 2. -/
  responses : List Response
  deriving DecidableEq, Repr

/-- The reset state, R30: every register zero, PHASE = IDLE. The engine waits for a command (R114). -/
def State.reset : State where
  phase := .idle
  h := Vector.replicate 8 0
  buf := Vector.replicate 64 0
  cnt := 0
  len := 0
  tag := 0
  cause := .none
  fcmd := 0
  pending := []
  responses := []

end Sys2Proof.Machine
end

