-- ==== Sys2Proof/Config.lean ====
section
/-! DEFINITION. What an implementation fixes or leaves open (00_scope R7, 92 open parameters). The free
values are read by the port layer only. Each takes the port's serial number, the engine's state and the
clock cycle, so that no two uses in one run of a port have the same arguments; log entries 5, 12, 13. -/

namespace Sys2Proof

/-- MAXLEN of R7: the longest message in bytes (R20, R77, R89). -/
def Config.maxLen : Nat := 2 ^ 61 - 1

/-- T_CMD of R7 and R125, less one: "any finite positive number, may differ per command and per
instance". A free value, log entry 5: of the port's serial number, the command word, the engine's state
and the cycle of acceptance. -/
opaque Config.responseDelay : Nat → CmdWord → Machine.State → Nat → Nat

/-- The further cycles in which `cmd_ready` is 0 after a delivery ("a finite number of cycles", R124), or
after a cycle in which it is 1 and no word is offered (where the spec is silent). A free value, log
entries 5 and 13. -/
opaque Config.readyDelay : Nat → Machine.State → Nat → Nat

/-- The further cycles in which `cmd_ready` is 0 after a cycle of hardware reset ("within a finite number
of cycles", R114). A free value, log entry 5. -/
opaque Config.resetDelay : Nat → Machine.State → Nat → Nat

/-- What stands on `rsp_err` in a cycle with `rsp_valid` = 0 (the last argument is `rst_n`): the spec
gives no value. A free value, log entry 12. -/
opaque Config.idleErr : Nat → Machine.State → Nat → Bool → Bool

/-- What stands on `rsp_data` in a cycle with `rsp_valid` = 0 (the last argument is `rst_n`): the spec
gives no value. A free value, log entry 12. -/
opaque Config.idleData : Nat → Machine.State → Nat → Bool → Word

end Sys2Proof
end

