-- ==== Sys2Proof/WellFormed.lean ====
section
/-! DEFINITION. Well-formed command words (30_encoding R58), check by check, and the operand checks
of assembler lines (R62, R63). -/

namespace Sys2Proof

/-- R58 (1): the opcode is one of the seven defined ones. -/
def Fields.opDefined (f : Fields) : Bool :=
  f.op == 0x0 || f.op == 0x1 || f.op == 0x2 || f.op == 0x3 || f.op == 0x4 || f.op == 0x5 ||
    f.op == 0xF

/-- R58 (2): the reserved field is zero. -/
def Fields.rsvdZero (f : Fields) : Bool := f.rsvd == 0

/-- R58 (3): the immediate is zero, but for PUSH. -/
def Fields.immAllowed (f : Fields) : Bool := f.op == 0x2 || f.imm == 0

/-- R58: a command word is well-formed when all three checks hold of its fields. -/
def Fields.wellFormed (f : Fields) : Bool := f.opDefined && f.rsvdZero && f.immAllowed

/-- A character a quoted operand may hold (R62, R63): printable ASCII, 0x20 to 0x7E. Log entry 9. -/
def printable (c : Nat) : Bool := 0x20 ≤ c && c ≤ 0x7E

/-- The text of `PUSHS`: printable ASCII without the double quote (R63). -/
def textAllowed (text : List Nat) : Bool := text.all fun c => printable c && c != 0x22

/-- The digits of `PUSHX`: whole pairs, each digit 0 to 15 (R63: "an odd number of digits is an
assembly error"). -/
def digitsAllowed (digits : List Nat) : Bool :=
  digits.length % 2 == 0 && digits.all fun d => decide (d < 16)

/-- R62, R63: "An operand out of range is an assembly error, not a command." -/
def AsmLine.wellFormed : AsmLine → Bool
  | .blank => true
  | .nop => true
  | .init => true
  | .push b => decide (b < 256)
  | .final => true
  | .rdtag => true
  | .rdstat => true
  | .rst => true
  | .word w => decide (w < 65536)
  | .pushs text => textAllowed text
  | .pushx digits => digitsAllowed digits
  | .pushn b _ => decide (b < 256)
  | .checksumText text => textAllowed text
  | .checksumHex digits => digitsAllowed digits

end Sys2Proof
end

