-- ==== Sys2Proof/Decode.lean ====
section
/-! DEFINITION. Decoding a command word (30_encoding R60), total on all 65,536 words, and encoding a
command (R53, R56). -/

namespace Sys2Proof

/-- The fields of a command word (R52, R53). -/
def Fields.ofWord (w : CmdWord) : Fields where
  op := w.extractLsb' 12 4
  rsvd := w.extractLsb' 8 4
  imm := w.extractLsb' 0 8

/-- The command word with these fields (R52). -/
def Fields.toWord (f : Fields) : CmdWord := f.op ++ f.rsvd ++ f.imm

/-- R60: `decode`, on the fields. The checks stand in the order of R58. -/
def decodeFields (f : Fields) : Decoded :=
  if !f.opDefined then .illegal .illop
  else if !f.rsvdZero then .illegal .illfld
  else if !f.immAllowed then .illegal .illfld
  else if f.op = 0x0 then .command .nop
  else if f.op = 0x1 then .command .init
  else if f.op = 0x2 then .command (.push f.imm)
  else if f.op = 0x3 then .command .final
  else if f.op = 0x4 then .command .rdtag
  else if f.op = 0x5 then .command .rdstat
  else .command .rst

/-- R60: decoding reads the word alone. -/
def decode (w : CmdWord) : Decoded := decodeFields (Fields.ofWord w)

/-- The fields of a command (R53, R56). -/
def encodeFields : Instr → Fields
  | .nop => ⟨0x0, 0, 0⟩
  | .init => ⟨0x1, 0, 0⟩
  | .push b => ⟨0x2, 0, b⟩
  | .final => ⟨0x3, 0, 0⟩
  | .rdtag => ⟨0x4, 0, 0⟩
  | .rdstat => ⟨0x5, 0, 0⟩
  | .rst => ⟨0xF, 0, 0⟩

/-- The one 16-bit word of a command (R56). -/
def encode (i : Instr) : CmdWord := (encodeFields i).toWord

/-- A command is well-formed when its word is (R58). PUSH's operand type holds exactly the bytes
0 to 255, so every command is. -/
def Instr.wellFormed (i : Instr) : Bool := (Fields.ofWord (encode i)).wellFormed

/-- The command of a decoded word, if it is one. -/
def Decoded.instr? : Decoded → Option Instr
  | .command i => some i
  | .illegal _ => none

/-- The command word among the low `nbits` bits of `w`. Every command has 16 bits (R61) and reaches
the engine whole over the command port, so no byte order enters (R64). -/
def tableWord (nbits w : Nat) : CmdWord := BitVec.ofNat 16 (w % 2 ^ nbits)

/-- The command the decoder reads from an opcode-table word. -/
def decodeTableWord (nbits w : Nat) : Option Instr := (decode (tableWord nbits w)).instr?

end Sys2Proof
end

