-- ==== Sys2Proof/Machine/Flags.lean ====
section
/-! DEFINITION. The status the engine shows: STATUS (10_state R24) and the responses (30_encoding R54,
R55). The engine has no arithmetic flags (10_state R25). -/

namespace Sys2Proof.Machine

/-- The two bits of PHASE, R16. -/
def Phase.code : Phase → BitVec 2
  | .idle => 0
  | .absorb => 1
  | .done => 2
  | .fault => 3

/-- The four bits of CAUSE, R98. -/
def causeCode : Cause → BitVec 4
  | .none => 0
  | .illop => 1
  | .illfld => 2
  | .seq => 3
  | .lenovf => 4

/-- STATUS, R24: FCMD, eight zeros, CAUSE, two zeros, PHASE, most significant first. -/
def statusWord (s : State) : Word :=
  s.fcmd ++ (0 : BitVec 8) ++ causeCode s.cause ++ (0 : BitVec 2) ++ s.phase.code

/-- The response of an executed command that reads `data`, R54. -/
def Response.ok (data : Word) : Response := ⟨false, data⟩

/-- The rejected response, R55: the same for every cause and every phase. -/
def Response.rejected : Response := ⟨true, 0⟩

end Sys2Proof.Machine
end

