-- ==== Sys2Proof/Machine/Ops.lean ====
section
/-! DEFINITION. The operations the commands share: MemRead and MemWrite of the block buffer (00_scope
R11), the response (R54), fault entry and its return (60_exceptions R104, R106), and the checks of
`execute` (41 R86). -/

namespace Sys2Proof.Machine

/-- `MemRead(addr, n)`, R11: BUF[addr], ..., BUF[addr + n - 1]. -/
def memRead (buf : Block) (addr n : Nat) : List Byte := (buf.toList.drop addr).take n

/-- `MemWrite(addr, n, v)`, R11: the byte string goes to BUF[addr], BUF[addr + 1], .... No command
writes outside the bounds addr + n <= 64 that R11 states. -/
def memWrite (buf : Block) (addr : Nat) : List Byte → Block
  | [] => buf
  | b :: bs => memWrite (buf.setIfInBounds addr b) (addr + 1) bs

/-- `respond(err, data)`, R11 and R54: the one response of the command, at the end of the stream. -/
def respond (r : Response) (s : State) : State := { s with responses := s.responses ++ [r] }

/-- `reject(cause, w)`, R86: fault entry (R104) outside FAULT, no register in FAULT (R105, R107), and
the rejected response. -/
def reject (c : Cause) (w : CmdWord) (s : State) : State :=
  respond .rejected
    (if s.phase = .fault then s else { s with phase := .fault, cause := c, fcmd := w })

/-- Every register to its reset value (R30): the way out of FAULT by command (R106, R96) and by
hardware reset (R114). The host interface is no register and stays. -/
def resetRegisters (s : State) : State :=
  { State.reset with pending := s.pending, responses := s.responses }

/-- The phases a command is legal in (R86 and the table of R16), FAULT included. -/
def legalIn : Instr → Phase → Bool
  | .nop, _ => true
  | .init, p => p == .idle || p == .absorb || p == .done
  | .push _, p => p == .absorb
  | .final, p => p == .absorb
  | .rdtag, p => p == .done
  | .rdstat, _ => true
  | .rst, _ => true

/-- The length check of a PUSH (R89): LEN = 2^61 - 1. -/
def atLengthLimit (i : Instr) (s : State) : Bool :=
  match i with
  | .nop => false
  | .init => false
  | .push _ => s.len.toNat == Config.maxLen
  | .final => false
  | .rdtag => false
  | .rdstat => false
  | .rst => false

/-- The first check of `execute` that a well-formed command fails, after decoding (R86, R103): SEQ,
then LENOVF. -/
def failedCheck (i : Instr) (s : State) : Option Cause :=
  if !legalIn i s.phase then some .seq
  else if atLengthLimit i s then some .lenovf
  else none

/-- `execute` of a well-formed command (R86): rejected with the cause of the first failed check and its
own word, else performed. -/
def issue (i : Instr) (perform : State → State) (s : State) : State :=
  match failedCheck i s with
  | some c => reject c (encode i) s
  | none => perform s

end Sys2Proof.Machine
end

