-- ==== Sys2Proof/Machine/Control.lean ====
section
/-! DEFINITION. The control commands NOP and RST (43_control_commands R95, R96): legal in every phase. -/

namespace Sys2Proof.Machine

/-- NOP, R95: no register is written; the response is still produced. -/
def execNop (s : State) : Host.Outcome State Fault Refusal :=
  .next (issue .nop (respond (.ok 0)) s)

/-- RST, R96: every register to its reset value; the only command that leaves FAULT (R106). -/
def execRst (s : State) : Host.Outcome State Fault Refusal :=
  .next (issue .rst (fun s => respond (.ok 0) (resetRegisters s)) s)

end Sys2Proof.Machine
end

