-- ==== Sys2Proof/Machine/Operands.lean ====
section
/-! DEFINITION. Operand assembly (30_encoding R57): the one operand of the command set. -/

namespace Sys2Proof.Machine

/-- R57: the message byte of PUSH is `zext_8(bits[7:0])`, used as it stands. -/
def messageByte (imm : Byte) : Byte := imm.zeroExtend 8

end Sys2Proof.Machine
end

