-- ==== Sys2Proof/Machine/Bytes.lean ====
section
/-! DEFINITION. Byte strings and byte orders (00_scope R10, 20_memory R36 to R40). -/

namespace Sys2Proof.Machine

/-- `BE32` of R10: the first byte is the most significant. -/
def be32 (b0 b1 b2 b3 : Byte) : Word := b0 ++ b1 ++ b2 ++ b3

/-- `LE32` of R10: the first byte is the least significant. -/
def le32 (b0 b1 b2 b3 : Byte) : Word := b3 ++ b2 ++ b1 ++ b0

/-- `bytesBE32` of R10: the most significant byte first. -/
def bytesBE32 (w : Word) : List Byte :=
  [w.extractLsb' 24 8, w.extractLsb' 16 8, w.extractLsb' 8 8, w.extractLsb' 0 8]

/-- `bytesLE32` of R10: the least significant byte first. -/
def bytesLE32 (w : Word) : List Byte :=
  [w.extractLsb' 0 8, w.extractLsb' 8 8, w.extractLsb' 16 8, w.extractLsb' 24 8]

/-- `bytesBE64` of R10: the most significant byte first. -/
def bytesBE64 (v : BitVec 64) : List Byte :=
  [v.extractLsb' 56 8, v.extractLsb' 48 8, v.extractLsb' 40 8, v.extractLsb' 32 8,
    v.extractLsb' 24 8, v.extractLsb' 16 8, v.extractLsb' 8 8, v.extractLsb' 0 8]

/-- `bswap32` of R10: the four bytes in reverse order. -/
def bswap32 (w : Word) : Word :=
  le32 (w.extractLsb' 24 8) (w.extractLsb' 16 8) (w.extractLsb' 8 8) (w.extractLsb' 0 8)

end Sys2Proof.Machine
end

