-- ==== Sys2Proof/Machine/Sha256.lean ====
section
/-! DEFINITION. The checksum function (40_checksum_function R67 to R81, R84, R85): SHA-256, its double
application and the tag, over byte strings and words, with no engine state. -/

namespace Sys2Proof.Machine

/-- `SHR` of R68. -/
def shr (x : Word) (n : Nat) : Word := x >>> n

/-- `ROTR` of R68: the low bits re-enter at the top. -/
def rotr (x : Word) (n : Nat) : Word := shr x n ||| (x <<< (32 - n))

/-- `Ch` of R69. -/
def ch (x y z : Word) : Word := (x &&& y) ^^^ (~~~x &&& z)

/-- `Maj` of R69. -/
def maj (x y z : Word) : Word := (x &&& y) ^^^ (x &&& z) ^^^ (y &&& z)

/-- `BSIG0` of R69. -/
def bsig0 (x : Word) : Word := rotr x 2 ^^^ rotr x 13 ^^^ rotr x 22

/-- `BSIG1` of R69. -/
def bsig1 (x : Word) : Word := rotr x 6 ^^^ rotr x 11 ^^^ rotr x 25

/-- `SSIG0` of R69. -/
def ssig0 (x : Word) : Word := rotr x 7 ^^^ rotr x 18 ^^^ shr x 3

/-- `SSIG1` of R69. -/
def ssig1 (x : Word) : Word := rotr x 17 ^^^ rotr x 19 ^^^ shr x 10

/-- The initial hash value, R70. -/
def iv : HashState :=
  #v[0x6A09E667, 0xBB67AE85, 0x3C6EF372, 0xA54FF53A, 0x510E527F, 0x9B05688C, 0x1F83D9AB, 0x5BE0CD19]

/-- K[0] to K[31], R71. -/
def roundConstantsLow : List Word :=
  [0x428A2F98, 0x71374491, 0xB5C0FBCF, 0xE9B5DBA5, 0x3956C25B, 0x59F111F1, 0x923F82A4, 0xAB1C5ED5] ++
  [0xD807AA98, 0x12835B01, 0x243185BE, 0x550C7DC3, 0x72BE5D74, 0x80DEB1FE, 0x9BDC06A7, 0xC19BF174] ++
  [0xE49B69C1, 0xEFBE4786, 0x0FC19DC6, 0x240CA1CC, 0x2DE92C6F, 0x4A7484AA, 0x5CB0A9DC, 0x76F988DA] ++
  [0x983E5152, 0xA831C66D, 0xB00327C8, 0xBF597FC7, 0xC6E00BF3, 0xD5A79147, 0x06CA6351, 0x14292967]

/-- K[32] to K[63], R71. -/
def roundConstantsHigh : List Word :=
  [0x27B70A85, 0x2E1B2138, 0x4D2C6DFC, 0x53380D13, 0x650A7354, 0x766A0ABB, 0x81C2C92E, 0x92722C85] ++
  [0xA2BFE8A1, 0xA81A664B, 0xC24B8B70, 0xC76C51A3, 0xD192E819, 0xD6990624, 0xF40E3585, 0x106AA070] ++
  [0x19A4C116, 0x1E376C08, 0x2748774C, 0x34B0BCB5, 0x391C0CB3, 0x4ED8AA4A, 0x5B9CCA4F, 0x682E6FF3] ++
  [0x748F82EE, 0x78A5636F, 0x84C87814, 0x8CC70208, 0x90BEFFFA, 0xA4506CEB, 0xBEF9A3F7, 0xC67178F2]

/-- The round constants K[0] to K[63], R71. -/
def roundConstants : List Word := roundConstantsLow ++ roundConstantsHigh

/-- The sixteen words of a block, R36 and R73: the first byte of each four is the most significant. -/
def blockWords (b : Block) : List Word :=
  List.ofFn fun j : Fin 16 => be32 b[4 * j.val] b[4 * j.val + 1] b[4 * j.val + 2] b[4 * j.val + 3]

/-- W[t] from the words before it, for 16 <= t <= 63 (R74). -/
def scheduleWord (ws : List Word) (t : Nat) : Word :=
  ssig1 (ws.getD (t - 2) 0) + ws.getD (t - 7) 0 + ssig0 (ws.getD (t - 15) 0) + ws.getD (t - 16) 0

/-- The message schedule W[0..63] of a block, R74. -/
def schedule (b : Block) : List Word :=
  (List.range' 16 48).foldl (fun ws t => ws ++ [scheduleWord ws t]) (blockWords b)

/-- The working variables of R75; local to the compression function (R26). -/
structure Working where
  a : Word
  b : Word
  c : Word
  d : Word
  e : Word
  f : Word
  g : Word
  h : Word
  deriving DecidableEq, Repr

/-- The working variables before round 0, R75. -/
def workingOf (h : HashState) : Working := ⟨h[0], h[1], h[2], h[3], h[4], h[5], h[6], h[7]⟩

/-- One round of R75 with K[t] and W[t], on the values the variables had at its start. -/
def roundStep (v : Working) (k w : Word) : Working :=
  let t1 := v.h + bsig1 v.e + ch v.e v.f v.g + k + w
  let t2 := bsig0 v.a + maj v.a v.b v.c
  { a := t1 + t2, b := v.a, c := v.b, d := v.c, e := v.d + t1, f := v.e, g := v.f, h := v.g }

/-- The rounds of R75 over the given pairs of K[t] and W[t], in order. -/
def runRounds (v : Working) (kws : List (Word × Word)) : Working :=
  kws.foldl (fun v kw => roundStep v kw.1 kw.2) v

/-- `Compress(Hin, B)`, R75. -/
def compress (hin : HashState) (b : Block) : HashState :=
  let v := runRounds (workingOf hin) (roundConstants.zip (schedule b))
  #v[hin[0] + v.a, hin[1] + v.b, hin[2] + v.c, hin[3] + v.d,
    hin[4] + v.e, hin[5] + v.f, hin[6] + v.g, hin[7] + v.h]

/-- The 32 bytes of eight state words, R38: each word big-endian, in order. -/
def digestBytes (h : HashState) : List Byte := h.toList.flatMap bytesBE32

/-- NB(n), R72 and R85: the number of blocks of the padded message. -/
def blockCount (n : Nat) : Nat := (n + 8) / 64 + 1

/-- `Pad(M)`, R72: 0x80, then the least number of zero bytes, then the bit length (R37). -/
def pad (m : List Byte) : List Byte :=
  m ++ [0x80] ++ List.replicate ((55 - (m.length : Int)) % 64).toNat 0 ++
    bytesBE64 (BitVec.ofNat 64 (8 * m.length))

/-- Bytes 64i to 64i + 63 of a byte string, R73. -/
def blockAt (bytes : List Byte) (i : Nat) : Block :=
  Vector.ofFn fun j => bytes.getD (64 * i + j.val) 0

/-- The state after compressing the first `k` blocks of a byte string from `h`, R76 and R84. -/
def absorbBlocks (h : HashState) (bytes : List Byte) (k : Nat) : HashState :=
  (List.range k).foldl (fun s i => compress s (blockAt bytes i)) h

/-- The eight words of SHA256(M), `S_N` of R76. -/
def sha256Words (m : List Byte) : HashState := absorbBlocks iv (pad m) (blockCount m.length)

/-- `SHA256(M)`, R76. -/
def sha256 (m : List Byte) : List Byte := digestBytes (sha256Words m)

/-- `DSHA256(M)`, R79. -/
def dsha256 (m : List Byte) : List Byte := sha256 (sha256 m)

/-- `TAG32(M)`, R80: the first four bytes of the second digest, little-endian (R39). -/
def tag32 (m : List Byte) : Word :=
  let d := dsha256 m
  le32 (d.getD 0 0) (d.getD 1 0) (d.getD 2 0) (d.getD 3 0)

/-- The source's `checksum(bytes)`, R65 and R80, on the domain of R77: defined exactly for messages
of at most 2^61 - 1 bytes. -/
def checksum (m : List Byte) : Option Word :=
  if m.length ≤ Config.maxLen then some (tag32 m) else none

/-- `Fin(T, n)`, R84: the tail, the padding and the bit length, one block for a tail of at most 55
bytes and two for a longer one. -/
def paddedTail (t : List Byte) (n : Nat) : List Byte :=
  let len := bytesBE64 (BitVec.ofNat 64 (8 * n))
  if t.length ≤ 55 then t ++ [0x80] ++ List.replicate (55 - t.length) 0 ++ len
  else t ++ [0x80] ++ List.replicate (63 - t.length) 0 ++ List.replicate 56 0 ++ len

end Sys2Proof.Machine
end

