-- ==== Sys2Proof/Machine/Message.lean ====
section
/-! DEFINITION. The message commands INIT, PUSH and FINAL (41_message_commands R87 to R91). -/

namespace Sys2Proof.Machine

/-- The pseudocode of INIT, R87. BUF, CAUSE and FCMD are not written. -/
def performInit (s : State) : State :=
  respond (.ok 0) { s with h := iv, cnt := 0, len := 0, tag := 0, phase := .absorb }

/-- The pseudocode of PUSH, R88: the block compressed includes the byte just written. -/
def performPush (b : Byte) (s : State) : State :=
  let buf := memWrite s.buf s.cnt.toNat [b]
  if s.cnt = 63 then
    respond (.ok 0) { s with buf := buf, len := s.len + 1, h := compress s.h buf, cnt := 0 }
  else
    respond (.ok 0) { s with buf := buf, len := s.len + 1, cnt := s.cnt + 1 }

/-- BUF with the tail of `n` bytes closed: 0x80 at index `n`, zeros above it (R90). -/
def closeTail (buf : Block) (n : Nat) : Block :=
  memWrite (memWrite buf n [0x80]) (n + 1) (List.replicate (63 - n) 0)

/-- The first pass of FINAL, R90: padding, the extra block when the length does not fit (`n >= 56`),
the length bytes (R37), and the last compression. Gives the words of D1 and BUF as it stands then. -/
def finishFirstPass (h : HashState) (buf : Block) (n len : Nat) : HashState × Block :=
  let buf := closeTail buf n
  let (h, buf) :=
    if 56 ≤ n then (compress h buf, memWrite buf 0 (List.replicate 64 0)) else (h, buf)
  let buf := memWrite buf 56 (bytesBE64 (BitVec.ofNat 64 (8 * len)))
  (compress h buf, buf)

/-- The one block of the second pass, R78 and R90, written over BUF. -/
def secondPassBlock (d1 : HashState) (buf : Block) : Block :=
  let buf := memWrite buf 0 (digestBytes d1)
  let buf := memWrite buf 32 [0x80]
  let buf := memWrite buf 33 (List.replicate 29 0)
  let buf := memWrite buf 62 [0x01]
  memWrite buf 63 [0x00]

/-- The pseudocode of FINAL, R90. LEN is read and not written. -/
def performFinal (s : State) : State :=
  let (d1, buf) := finishFirstPass s.h s.buf s.cnt.toNat s.len.toNat
  let buf := secondPassBlock d1 buf
  let h := compress iv buf
  respond (.ok 0) { s with buf := buf, h := h, tag := bswap32 h[0], cnt := 0, phase := .done }

/-- INIT, R87: open a new message. -/
def execInit (s : State) : Host.Outcome State Fault Refusal :=
  .next (issue .init performInit s)

/-- PUSH, R88 and R89: append one byte to the open message. -/
def execPush (b : Byte) (s : State) : Host.Outcome State Fault Refusal :=
  .next (issue (.push b) (performPush (messageByte b)) s)

/-- FINAL, R90: close the message and compute the tag. -/
def execFinal (s : State) : Host.Outcome State Fault Refusal :=
  .next (issue .final performFinal s)

end Sys2Proof.Machine
end

