-- ==== Sys2Proof/Machine/Readout.lean ====
section
/-! DEFINITION. The readout commands RDTAG and RDSTAT (42_readout_commands R93, R94): they write no
register. -/

namespace Sys2Proof.Machine

/-- RDTAG, R93: the tag of the closed message; legal in DONE only. -/
def execRdtag (s : State) : Host.Outcome State Fault Refusal :=
  .next (issue .rdtag (fun s => respond (.ok s.tag) s) s)

/-- RDSTAT, R94: the status word (R24); legal in every phase. -/
def execRdstat (s : State) : Host.Outcome State Fault Refusal :=
  .next (issue .rdstat (fun s => respond (.ok (statusWord s)) s) s)

end Sys2Proof.Machine
end

