-- ==== Sys2Proof/Machine/Dispatch.lean ====
section
/-! DEFINITION. One arm per command of 30_encoding R56. -/

namespace Sys2Proof.Machine

/-- What a well-formed command does (41 R86). -/
def exec (i : Instr) (s : State) : Host.Outcome State Fault Refusal :=
  match i with
  | .nop => Sys2Proof.Machine.execNop s
  | .init => Sys2Proof.Machine.execInit s
  | .push b => Sys2Proof.Machine.execPush b s
  | .final => Sys2Proof.Machine.execFinal s
  | .rdtag => Sys2Proof.Machine.execRdtag s
  | .rdstat => Sys2Proof.Machine.execRdstat s
  | .rst => Sys2Proof.Machine.execRst s

end Sys2Proof.Machine
end

