-- ==== Sys2Proof/Machine/Execute.lean ====
section
/-! DEFINITION. What the engine does with the host's next action: `execute` of a command word (41 R86)
and hardware reset (70 R114 to R116). -/

namespace Sys2Proof.Machine

/-- `execute(w)`, R86: an illegal word is rejected before any check of the phase. -/
def executeWord (w : CmdWord) (s : State) : Host.Outcome State Fault Refusal :=
  match decode w with
  | .command i => exec i s
  | .illegal c => .next (reject c w s)

/-- Hardware reset, R114 and R116: every register to its reset value, no response. -/
def hardwareReset (s : State) : State := resetRegisters s

/-- One action of the host or the platform, taken whole (R46, R115). -/
def perform : HostAction → State → Host.Outcome State Fault Refusal
  | .command w, s => executeWord w s
  | .hardwareReset, s => .next (hardwareReset s)

/-- The next action, if there is one. "The first thing the engine does after reset is wait for a
command" (R114), and if none comes it "waits for ever in its current phase" (R123): it then keeps its
state. -/
def takeAction (s : State) : Host.Outcome State Fault Refusal :=
  match s.pending with
  | [] => .next s
  | a :: rest => perform a { s with pending := rest }

end Sys2Proof.Machine
end

