-- ==== Sys2Proof/Machine/Step.lean ====
section
/-! DEFINITION. One step of the machine: one transaction of the port (30_encoding R51), or one hardware
reset (70 R115). -/

namespace Sys2Proof.Machine

/-- One step: `step(state, word) = (state', err, data)` of R51, the word being the host's next. -/
def step (s : State) : Host.Outcome State Fault Refusal := takeAction s

/-- The host offers exactly this one command word next. The engine fetches nothing (R14): this is where
a command comes from. Log entry 1. -/
def State.withFetchWord (s : State) (nbits w : Nat) : State :=
  { s with pending := [.command (tableWord nbits w)] }

end Sys2Proof.Machine
end

