-- ==== Sys2Proof/Machine/Assembler.lean ====
section
/-! DEFINITION. The assembler of 30_encoding R62 and R63 and the listing form of R64: text lines to
command words, on character codes. Spellings the rules leave open are fixed by log entry 9. -/

namespace Sys2Proof.Machine

/-- The character codes of a text. -/
def codes (s : String) : List Nat := s.toList.map Char.toNat

/-- White space: space, tab, carriage return. Log entry 9. -/
def blankCode (c : Nat) : Bool := c == 0x20 || c == 0x09 || c == 0x0D

/-- A text without leading and trailing white space. -/
def trimBlanks (cs : List Nat) : List Nat :=
  ((cs.dropWhile blankCode).reverse.dropWhile blankCode).reverse

/-- The line up to the comment (R62). A semicolon inside a quoted character or text is no comment (log
entry 9); the flag says whether a text is open. -/
def stripComment : Bool → List Nat → List Nat
  | _, [] => []
  | true, c :: cs => c :: stripComment (c != 0x22) cs
  | false, 0x27 :: c :: 0x27 :: cs => 0x27 :: c :: 0x27 :: stripComment false cs
  | false, c :: cs => if c = 0x3B then [] else c :: stripComment (c == 0x22) cs

/-- The value of a decimal or hexadecimal digit, either case (log entry 9). -/
def digitValue (c : Nat) : Option Nat :=
  if 0x30 ≤ c ∧ c ≤ 0x39 then some (c - 0x30)
  else if 0x41 ≤ c ∧ c ≤ 0x46 then some (c - 0x37)
  else if 0x61 ≤ c ∧ c ≤ 0x66 then some (c - 0x57)
  else none

/-- One more digit of a number in a base. -/
def pushDigit (base : Nat) (acc : Option Nat) (c : Nat) : Option Nat :=
  match acc, digitValue c with
  | some a, some d => if d < base then some (base * a + d) else none
  | _, _ => none

/-- A number in a base, at least one digit. -/
def number (base : Nat) (cs : List Nat) : Option Nat :=
  if cs = [] then none else cs.foldl (pushDigit base) (some 0)

/-- A decimal number, or a hexadecimal one after 0x. -/
def numberOperand : List Nat → Option Nat
  | 0x30 :: 0x78 :: cs => number 16 cs
  | cs => number 10 cs

/-- The operand of PUSH (R62): a number, or one printable character in single quotes. -/
def byteOperand : List Nat → Option Nat
  | [0x27, c, 0x27] => if printable c then some c else none
  | cs => numberOperand cs

/-- A text in double quotes (R63). -/
def quotedText : List Nat → Option (List Nat)
  | 0x22 :: cs => if cs.getLast? = some 0x22 then some cs.dropLast else none
  | _ => none

/-- Pairs of hexadecimal digits with white space allowed between pairs (R63). No operand at all is zero
pairs, for PUSHX and for CHECKSUM: DESIGN CHOICE, log entry 9. -/
def hexDigits : List Nat → Option (List Nat)
  | [] => some []
  | [c] => if blankCode c then some [] else (digitValue c).map fun d => [d]
  | c :: c' :: cs =>
    if blankCode c then hexDigits (c' :: cs)
    else
      match digitValue c, digitValue c', hexDigits cs with
      | some d, some d', some ds => some (d :: d' :: ds)
      | _, _, _ => none

/-- The parts before and after the first comma that is not a quoted character. -/
def splitComma : List Nat → List Nat × List Nat
  | [] => ([], [])
  | 0x27 :: c :: 0x27 :: cs => (0x27 :: c :: 0x27 :: (splitComma cs).1, (splitComma cs).2)
  | c :: cs => if c = 0x2C then ([], cs) else (c :: (splitComma cs).1, (splitComma cs).2)

/-- A line with no operand; with one it is an assembly error (log entry 9). -/
def bare (operand : List Nat) (l : AsmLine) : Option AsmLine := if operand = [] then some l else none

/-- The operands of PUSHN (R63). -/
def repeatOperands (operand : List Nat) : Option AsmLine :=
  match byteOperand (trimBlanks (splitComma operand).1),
      numberOperand (trimBlanks (splitComma operand).2) with
  | some b, some n => some (.pushn b n)
  | _, _ => none

/-- The operand of CHECKSUM (R63): a text or a hexadecimal string, empty with no operand (log entry 9). -/
def checksumOperand (operand : List Nat) : Option AsmLine :=
  match operand with
  | 0x22 :: _ => (quotedText operand).map .checksumText
  | _ => (hexDigits operand).map .checksumHex

/-- A line from its mnemonic and its operand (R62, R63). -/
def parseParts (mnemonic operand : List Nat) : Option AsmLine :=
  if mnemonic = [] then bare operand .blank
  else if mnemonic = codes "NOP" then bare operand .nop
  else if mnemonic = codes "INIT" then bare operand .init
  else if mnemonic = codes "PUSH" then (byteOperand operand).map .push
  else if mnemonic = codes "FINAL" then bare operand .final
  else if mnemonic = codes "RDTAG" then bare operand .rdtag
  else if mnemonic = codes "RDSTAT" then bare operand .rdstat
  else if mnemonic = codes "RST" then bare operand .rst
  else if mnemonic = codes ".word" then (numberOperand operand).map .word
  else if mnemonic = codes "PUSHS" then (quotedText operand).map .pushs
  else if mnemonic = codes "PUSHX" then (hexDigits operand).map .pushx
  else if mnemonic = codes "PUSHN" then repeatOperands operand
  else if mnemonic = codes "CHECKSUM" then checksumOperand operand
  else none

/-- One line of text (R62). -/
def parseLine (text : String) : Option AsmLine :=
  let line := trimBlanks (stripComment false (codes text))
  parseParts (line.takeWhile fun c => !blankCode c)
    (trimBlanks (line.dropWhile fun c => !blankCode c))

/-- The command that pushes a byte value. -/
def pushCommand (b : Nat) : CmdWord := encode (.push (BitVec.ofNat 8 b))

/-- The bytes of pairs of hexadecimal digits. -/
def pairBytes : List Nat → List Nat
  | d :: d' :: ds => (16 * d + d') :: pairBytes ds
  | _ => []

/-- The transaction of the source's one call (R63, R118). -/
def checksumCommands (bytes : List Nat) : List CmdWord :=
  [encode .init] ++ bytes.map pushCommand ++ [encode .final, encode .rdtag]

/-- The words a well-formed line stands for (R62, R63). -/
def expandLine : AsmLine → List CmdWord
  | .blank => []
  | .nop => [encode .nop]
  | .init => [encode .init]
  | .push b => [pushCommand b]
  | .final => [encode .final]
  | .rdtag => [encode .rdtag]
  | .rdstat => [encode .rdstat]
  | .rst => [encode .rst]
  | .word w => [BitVec.ofNat 16 w]
  | .pushs text => text.map pushCommand
  | .pushx digits => (pairBytes digits).map pushCommand
  | .pushn b n => List.replicate n (pushCommand b)
  | .checksumText text => checksumCommands text
  | .checksumHex digits => checksumCommands (pairBytes digits)

/-- The words of a line of text, or an assembly error. -/
def assembleLine (text : String) : Option (List CmdWord) :=
  match parseLine text with
  | some l => if l.wellFormed then some (expandLine l) else none
  | none => none

/-- The words of a program, a list of lines (R62), or an assembly error if any line is one (log entry 9). -/
def assemble : List String → Option (List CmdWord)
  | [] => some []
  | line :: lines =>
    match assembleLine line, assemble lines with
    | some ws, some rest => some (ws ++ rest)
    | _, _ => none

/-- The code of a hexadecimal digit, capitals as in the listings of 95_test_vectors. -/
def hexCode (d : BitVec 4) : Nat := if d.toNat < 10 then 0x30 + d.toNat else 0x37 + d.toNat

/-- 0x and the eight hexadecimal digits of a word. -/
def hexWord (w : Word) : List Nat :=
  codes "0x" ++ [28, 24, 20, 16, 12, 8, 4, 0].map fun i => hexCode (w.extractLsb' i 4)

/-- 0x and the four hexadecimal digits of a command word. -/
def hexCommand (w : CmdWord) : List Nat :=
  codes "0x" ++ [12, 8, 4, 0].map fun i => hexCode (w.extractLsb' i 4)

/-- 0x and the two hexadecimal digits of a byte. -/
def hexByte (b : Byte) : List Nat :=
  codes "0x" ++ [4, 0].map fun i => hexCode (b.extractLsb' i 4)

/-- The line that assembles to a word (R62); the byte of PUSH in hexadecimal, log entry 9. -/
def listCommand (w : CmdWord) : List Nat :=
  match decode w with
  | .command .nop => codes "NOP"
  | .command .init => codes "INIT"
  | .command (.push b) => codes "PUSH " ++ hexByte b
  | .command .final => codes "FINAL"
  | .command .rdtag => codes "RDTAG"
  | .command .rdstat => codes "RDSTAT"
  | .command .rst => codes "RST"
  | .illegal _ => codes ".word " ++ hexCommand w

/-- A response as a listing writes it (R64): `ok`, `ok 0x........` for RDTAG and RDSTAT, `err`. -/
def listResponse (i : Decoded) (r : Response) : List Nat :=
  if r.err then codes "err"
  else if i = .command .rdtag ∨ i = .command .rdstat then codes "ok " ++ hexWord r.data
  else codes "ok"

/-- A line of a listing, `index: word  mnemonic  ; -> response` (R64). The index is the host's. -/
def listLine (index : Nat) (w : CmdWord) (r : Response) : List Nat :=
  (Nat.toDigits 10 index).map Char.toNat ++ codes ": " ++ hexCommand w ++ codes "  " ++
    listCommand w ++ codes "  ; -> " ++ listResponse (decode w) r

end Sys2Proof.Machine
end

