-- ==== Sys2Proof/Machine/Instances.lean ====
section
/-! DEFINITION. Several engine instances, "each with its own registers and its own ports, sharing
nothing" (60_exceptions R112). -/

namespace Sys2Proof.Machine

/-- Instance `k` takes one step; the others keep their state (R112). -/
def stepInstance (engines : List State) (k : Nat) : Host.Outcome (List State) Fault Refusal :=
  match engines[k]? with
  | none => .next engines
  | some s =>
    match step s with
    | .next t => .next (engines.set k t)
    | .fault r => .fault r
    | .refused r => .refused r

/-- The instances take steps in the order of a schedule: "in any interleaving" (R112). -/
def runSchedule (engines : List State) : List Nat → Host.Outcome (List State) Fault Refusal
  | [] => .next engines
  | k :: rest =>
    match stepInstance engines k with
    | .next es => runSchedule es rest
    | .fault r => .fault r
    | .refused r => .refused r

end Sys2Proof.Machine
end

