-- ==== Sys2Proof/Machine/Port.lean ====
section
/-! DEFINITION. The two valid/ready channels, one clock cycle at a time (30_encoding R50, R51; 70 R114,
R115, R119, R123, R124). A command takes effect, whole, in the cycle in which its response is delivered,
so that a command abandoned by reset was never issued (R115); log entries 5 to 7, 12 and 13. -/

namespace Sys2Proof.Machine

/-- The engine's inputs in one clock cycle, R50. -/
structure HostPins where
  /-- `rst_n`, active low. -/
  rstN : Bool
  /-- `cmd_valid`. -/
  cmdValid : Bool
  /-- `cmd`. -/
  cmd : CmdWord
  /-- `rsp_ready`. -/
  rspReady : Bool
  deriving DecidableEq, Repr

/-- The engine's outputs in one clock cycle, R50. -/
structure EnginePins where
  /-- `cmd_ready`. -/
  cmdReady : Bool
  /-- `rsp_valid`. -/
  rspValid : Bool
  /-- `rsp_err`. -/
  rspErr : Bool
  /-- `rsp_data`. -/
  rspData : Word
  deriving DecidableEq, Repr

/-- Where the two channels are, R51: at most one command is in progress. -/
inductive Channel where
  /-- `cmd_ready` is 0 and rises after `n` further cycles: after reset, after a delivery, or after an idle
  cycle (log entry 13). -/
  | settling (n : Nat)
  /-- `cmd_ready` is 1. -/
  | ready
  /-- The word `w` is accepted; its response is presented after `n` further cycles. -/
  | working (n : Nat) (w : CmdWord)
  /-- The response to `w` is presented and not yet delivered. -/
  | presenting (w : CmdWord)
  deriving DecidableEq, Repr

/-- The engine with its port. -/
structure Port where
  /-- The engine, as it stands between two commands. -/
  engine : State
  /-- Where the channels are. -/
  channel : Channel
  /-- A word offered in the cycle before and not accepted: the host must hold it (R51). -/
  offered : Option CmdWord
  /-- The model's own: which engine in which run this is, for the free values. Log entry 5. -/
  serial : Nat
  /-- The model's own: how many clock cycles have passed, for the free values. Log entry 5. -/
  cycle : Nat
  deriving DecidableEq, Repr

/-- The channel `n` cycles before `cmd_ready` rises. -/
def settle : Nat → Channel
  | 0 => .ready
  | n + 1 => .settling n

/-- A port when `rst_n` has returned to 1: the reset state, and `cmd_ready` rising within a finite number
of cycles (R114). -/
def Port.reset (serial : Nat) : Port :=
  { engine := State.reset, channel := settle (Config.resetDelay serial State.reset 0), offered := none,
    serial := serial, cycle := 1 }

/-- The response the engine gives to a word in a state (R54). -/
def responseTo (w : CmdWord) (s : State) : Response :=
  match executeWord w s with
  | .next t => t.responses.getLast?.getD .rejected
  | .fault _ => .rejected
  | .refused _ => .rejected

/-- The channel `n` cycles before the response to `w` is presented. -/
def answerAfter (w : CmdWord) : Nat → Channel
  | 0 => .presenting w
  | n + 1 => .working n w

/-- The outputs in a cycle with `rsp_valid` = 0. The spec gives no value of `rsp_err` and `rsp_data` there
(R50, R51, R114): they are free values, log entry 12. -/
def quietPins (p : Port) (rstN cmdReady : Bool) : EnginePins where
  cmdReady := cmdReady
  rspValid := false
  rspErr := Config.idleErr p.serial p.engine p.cycle rstN
  rspData := Config.idleData p.serial p.engine p.cycle rstN

/-- The outputs in a cycle. While `rst_n` is 0, `cmd_ready` and `rsp_valid` are 0 (R114). With
`rsp_valid` = 0, `rsp_err` and `rsp_data` are free values, log entry 12. -/
def enginePins (p : Port) (rstN : Bool) : EnginePins :=
  match rstN, p.channel with
  | true, .ready => quietPins p rstN true
  | true, .presenting w => ⟨false, true, (responseTo w p.engine).err, (responseTo w p.engine).data⟩
  | _, _ => quietPins p rstN false

/-- The word the host offers in a cycle. -/
def offerOf (pins : HostPins) : Option CmdWord := if pins.cmdValid then some pins.cmd else none

/-- The host changes or withdraws a word it had to hold (R51, 93 U14). -/
def breaksHold (offered : Option CmdWord) (pins : HostPins) : Bool :=
  match offered with
  | some w => offerOf pins != some w
  | none => false

/-- The port one clock cycle later. -/
def Port.after (p : Port) (engine : State) (channel : Channel) (offered : Option CmdWord) : Port :=
  { engine := engine, channel := channel, offered := offered, serial := p.serial, cycle := p.cycle + 1 }

/-- The port after the cycle of a delivery, from the outcome of the command. -/
def deliver (p : Port) (pins : HostPins) : Host.Outcome State Fault Refusal → Host.Outcome Port Fault Refusal
  | .next t =>
    .next (p.after t (settle (Config.readyDelay p.serial p.engine p.cycle)) (offerOf pins))
  | .fault r => .fault r
  | .refused r => .refused r

/-- One rising clock edge. Reset acts whatever the channels do (R114); a word is accepted when
`cmd_valid` and `cmd_ready` are both 1, a response delivered when `rsp_valid` and `rsp_ready` are (R51).
All cycle counts are free values: T_CMD may differ per command, state and engine (R7, R125; log entry 5),
and `cmd_ready` need not stay 1 while no word is offered (log entry 13). -/
def portCycle (p : Port) (pins : HostPins) : Host.Outcome Port Fault Refusal :=
  if !pins.rstN then
    .next (p.after (hardwareReset p.engine) (settle (Config.resetDelay p.serial p.engine p.cycle)) none)
  else if breaksHold p.offered pins then .refused .handshakeBroken
  else
    match p.channel with
    | .settling n => .next (p.after p.engine (settle n) (offerOf pins))
    | .ready =>
      .next (p.after p.engine
        (if pins.cmdValid then
          answerAfter pins.cmd (Config.responseDelay p.serial pins.cmd p.engine p.cycle)
        else settle (Config.readyDelay p.serial p.engine p.cycle)) none)
    | .working n w => .next (p.after p.engine (answerAfter w n) (offerOf pins))
    | .presenting w =>
      if pins.rspReady then deliver p pins (executeWord w p.engine)
      else .next (p.after p.engine (.presenting w) (offerOf pins))

/-- A run of clock cycles. -/
def portRun (p : Port) : List HostPins → Host.Outcome Port Fault Refusal
  | [] => .next p
  | pins :: rest =>
    match portCycle p pins with
    | .next q => portRun q rest
    | .fault r => .fault r
    | .refused r => .refused r

end Sys2Proof.Machine
end

