-- ==== Sys2Proof/Safety.lean ====
section
/-! DEFINITION. What a sound state is (10_state R29, 41 R91) and the terms the statements use: runs,
rejection, transactions. -/

namespace Sys2Proof

open Sys2Proof.Machine

/-- R29 (a): the fault record belongs to FAULT. -/
def FaultRecordSound (s : State) : Prop :=
  (s.phase = .fault ↔ s.cause ≠ .none) ∧ (s.cause = .none → s.fcmd = 0)

/-- R29 (b): every register holds its reset value. -/
def RegistersReset (s : State) : Prop := s = resetRegisters s

/-- R29 (c): the engine is in ABSORB and the message `m` is open. -/
structure Absorbing (s : State) (m : List Byte) : Prop where
  phase : s.phase = .absorb
  len : s.len.toNat = m.length
  cnt : s.cnt.toNat = m.length % 64
  tag : s.tag = 0
  tail : memRead s.buf 0 s.cnt.toNat = m.drop (64 * (m.length / 64))
  hash : s.h = absorbBlocks iv m (m.length / 64)

/-- R29 (d), R91: the engine is in DONE and holds the tag of the message `m`. -/
structure Closed (s : State) (m : List Byte) : Prop where
  phase : s.phase = .done
  len : s.len.toNat = m.length
  cnt : s.cnt = 0
  hash : digestBytes s.h = dsha256 m
  tag : s.tag = tag32 m
  tagWord : s.tag = bswap32 s.h[0]
  block : s.buf.toList = sha256 m ++ [0x80] ++ List.replicate 29 0 ++ [0x01, 0x00]

/-- R29 outside FAULT: (a) to (d). -/
def SoundOutsideFault (s : State) : Prop :=
  FaultRecordSound s ∧ s.phase ≠ .fault ∧
    (s.phase = .idle → RegistersReset s) ∧
    (s.phase = .absorb → ∃ m, Absorbing s m) ∧
    (s.phase = .done → ∃ m, Closed s m)

/-- R29: sound outside FAULT, or in FAULT with every register but PHASE, CAUSE and FCMD as in a sound
state before the faulting command (e). -/
def Sound (s : State) : Prop :=
  SoundOutsideFault s ∨
    (s.phase = .fault ∧ s.cause ≠ .none ∧
      ∃ before, SoundOutsideFault before ∧
        s = { before with phase := s.phase, cause := s.cause, fcmd := s.fcmd,
                          pending := s.pending, responses := s.responses })

/-- The registers of two states agree (R116): all eight of R16 to R23. -/
def SameRegisters (s t : State) : Prop :=
  s.phase = t.phase ∧ s.h = t.h ∧ s.buf = t.buf ∧ s.cnt = t.cnt ∧ s.len = t.len ∧ s.tag = t.tag ∧
    s.cause = t.cause ∧ s.fcmd = t.fcmd

/-- The state with these host actions to come. -/
def withActions (s : State) (as : List HostAction) : State := { s with pending := as }

/-- The actions that issue these command words. -/
def issueWords (ws : List CmdWord) : List HostAction := ws.map .command

/-- The actions of the canonical use, R118: INIT, PUSH of each byte, FINAL, RDTAG. -/
def transaction (m : List Byte) : List HostAction :=
  issueWords ([encode .init] ++ m.map (fun b => encode (.push b)) ++ [encode .final, encode .rdtag])

/-- A run of the core that takes these host actions, one a step. -/
def runActions (s : State) (as : List HostAction) : Host.Outcome State Fault Refusal :=
  Host.Core.run core as.length (withActions s as)

/-- The first check a command word fails in a state, in the order of R103 and by the words of R99 to
R102, on the bits of the word. -/
def rejectionCause (w : CmdWord) (s : State) : Option Cause :=
  let op := (w.extractLsb' 12 4).toNat
  if 0x6 ≤ op ∧ op ≤ 0xE then some .illop
  else if w.extractLsb' 8 4 ≠ 0 ∨ (op ≠ 0x2 ∧ w.extractLsb' 0 8 ≠ 0) then some .illfld
  else if (s.phase = .fault ∧ 0x1 ≤ op ∧ op ≤ 0x4) ∨ ((op = 0x2 ∨ op = 0x3) ∧ s.phase ≠ .absorb) ∨
      (op = 0x4 ∧ s.phase ≠ .done) then some .seq
  else if op = 0x2 ∧ s.len.toNat = 2 ^ 61 - 1 then some .lenovf
  else none

/-- The phase after a command word, by the transition table of R16. -/
def phaseAfter (w : CmdWord) (s : State) : Phase :=
  if rejectionCause w s ≠ none then .fault
  else if w = 0x1000 then .absorb
  else if w = 0x3000 then .done
  else if w = 0xF000 then .idle
  else s.phase

/-- The fault record names a word its cause can come from (R98 to R102). -/
def FaultWordSound (s : State) : Prop :=
  s.phase = .fault →
    (s.cause = .illop ∧ decode s.fcmd = .illegal .illop) ∨
    (s.cause = .illfld ∧ decode s.fcmd = .illegal .illfld) ∨
    (s.cause = .seq ∧ (s.fcmd = 0x3000 ∨ s.fcmd = 0x4000 ∨ ∃ b, s.fcmd = encode (.push b))) ∨
    (s.cause = .lenovf ∧ ∃ b, s.fcmd = encode (.push b))

/-- A command word other than NOP and RDSTAT. -/
def notNopOrRdstat (w : CmdWord) : Bool := w != 0x0000 && w != 0x5000

end Sys2Proof
end

