-- ==== Sys2Proof/Certificates/Slice0/Obligations.lean ====
section
/-! DEFINITION. The statements for the provers. OBLIGATIONS.json lists them in this order. Throughout,
`pending` and `responses` are the model's form of the spec's one command stream and one response stream
(20_memory R46); that form is the model's choice, log entries 1 and 2. -/

open Sys2Proof Sys2Proof.Machine

/-! ## Encoding -/

/-- R53, R56, R60: every command's word is well-formed and decodes to that command, with every operand. -/
def Obligations.DecodeOfEncodeIsTheCommand : Prop :=
  ∀ i : Instr, i.wellFormed = true ∧ decode (encode i) = .command i

/-- R52, R58: a word that decodes to a command is that command's one word ("no two words mean the same
command", 92 D4). -/
def Obligations.EachCommandHasOneWord : Prop :=
  ∀ (w : CmdWord) (i : Instr), decode w = .command i → w = encode i

/-- R60, R58: decoding is a total function of the word alone: the cause of every ill-formed word and the
command of every well-formed one, on the bits of the word. -/
def Obligations.DecodeFollowsTheThreeChecks : Prop :=
  ∀ w : CmdWord,
    let op := (w.extractLsb' 12 4).toNat
    let imm := w.extractLsb' 0 8
    let one := op ≤ 0x5 ∨ op = 0xF
    let two := w.extractLsb' 8 4 = 0
    let three := op = 0x2 ∨ imm = 0
    (decode w = .illegal .illop ↔ ¬one) ∧
      (decode w = .illegal .illfld ↔ one ∧ ¬(two ∧ three)) ∧
      (one ∧ two ∧ three →
        decode w = .command
          (if op = 0x0 then .nop else if op = 0x1 then .init else if op = 0x2 then .push imm
           else if op = 0x3 then .final else if op = 0x4 then .rdtag else if op = 0x5 then .rdstat
           else .rst))

/-- Words written out bit by bit from R52 and R56 decode to the commands they stand for, and two illegal
words to their causes. -/
def Obligations.SpecWordsDecode : Prop :=
  decode 0b0000000000000000 = .command .nop ∧ decode 0b0001000000000000 = .command .init ∧
    decode 0b0010000001100001 = .command (.push 0x61) ∧
    decode 0b0011000000000000 = .command .final ∧ decode 0b0100000000000000 = .command .rdtag ∧
    decode 0b0101000000000000 = .command .rdstat ∧ decode 0b1111000000000000 = .command .rst ∧
    decode 0b0111111111111111 = .illegal .illop ∧ decode 0b0010000101100001 = .illegal .illfld

/-! ## The step -/

/-- R86, R46: a step with a command word pending that decodes to a well-formed command is `exec` of that
command on the state with the word taken. That the words stand in `pending` is the model's choice, log
entry 1. -/
def Obligations.StepRunsTheDecodedCommand : Prop :=
  ∀ (s : State) (w : CmdWord) (rest : List HostAction) (i : Instr),
    s.pending = .command w :: rest → decode w = .command i → i.wellFormed = true →
      step s = exec i { s with pending := rest }

/-- R114, R123: with nothing to do the engine waits and keeps every register. The model's choice, log
entry 1: the step is then the identity. -/
def Obligations.StepWaitsForTheHost : Prop :=
  ∀ s : State, s.pending = [] → step s = .next s

/-- R54, R55: every command word gets one next state and exactly one response; `err` is 1 exactly when
the word is rejected, a rejected response carries 0, and an executed one TAG, STATUS or 0. -/
def Obligations.EveryWordGetsItsOneResponse : Prop :=
  ∀ (s : State) (w : CmdWord) (rest : List HostAction), s.pending = .command w :: rest →
    ∃ t r, step s = .next t ∧ t.pending = rest ∧ t.responses = s.responses ++ [r] ∧
      (r.err = true ↔ rejectionCause w s ≠ none) ∧
      (r.err = true → r.data = 0) ∧
      (r.err = false →
        r.data = if w = 0x4000 then s.tag else if w = 0x5000 then statusWord s else 0)

/-- R59, R86: nothing stops the machine: every state has a next state. -/
def Obligations.EveryStateHasANextState : Prop :=
  ∀ s : State, ∃ t, step s = .next t

/-- R16: PHASE after a command word, by the transition table, and IDLE after hardware reset. -/
def Obligations.PhaseFollowsTheTransitionTable : Prop :=
  (∀ (s t : State) (w : CmdWord) (rest : List HostAction),
      s.pending = .command w :: rest → step s = .next t → t.phase = phaseAfter w s) ∧
    (∀ (s t : State) (rest : List HostAction),
      s.pending = .hardwareReset :: rest → step s = .next t → t.phase = .idle)

/-! ## Faults -/

/-- R104: fault entry, for every word that is rejected outside FAULT, with the cause that R103 names. -/
def Obligations.FaultEntryRecordsTheFirstFault : Prop :=
  ∀ (s : State) (w : CmdWord) (rest : List HostAction) (c : Cause),
    s.pending = .command w :: rest → s.phase ≠ .fault → rejectionCause w s = some c →
      step s = .next { s with pending := rest, phase := .fault, cause := c, fcmd := w,
                              responses := s.responses ++ [⟨true, 0⟩] }

/-- R105: in FAULT every word but NOP, RDSTAT and RST gets the rejected response and changes no register;
those three are executed with `err` = 0, and any number of words without RST among them leaves every
register as it is. -/
def Obligations.FaultPhaseKeepsEveryRegister : Prop :=
  (∀ (s : State) (w : CmdWord) (rest : List HostAction),
      s.phase = .fault → s.pending = .command w :: rest →
        (w ≠ 0x0000 → w ≠ 0x5000 → w ≠ 0xF000 →
          step s = .next { s with pending := rest, responses := s.responses ++ [⟨true, 0⟩] }) ∧
        (w = 0x0000 →
          step s = .next { s with pending := rest, responses := s.responses ++ [⟨false, 0⟩] }) ∧
        (w = 0x5000 →
          step s = .next { s with pending := rest,
                                  responses := s.responses ++ [⟨false, statusWord s⟩] }) ∧
        (w = 0xF000 →
          step s = .next { State.reset with pending := rest,
                                            responses := s.responses ++ [⟨false, 0⟩] })) ∧
    (∀ (s : State) (ws : List CmdWord), s.phase = .fault → (0xF000 : CmdWord) ∉ ws →
      ∃ t, runActions s (issueWords ws) = .next t ∧ SameRegisters s t)

/-- R106: the only ways out of FAULT are the word of RST and hardware reset, and both leave every
register at its reset value. -/
def Obligations.OnlyResetLeavesFault : Prop :=
  ∀ s t : State, s.phase = .fault → step s = .next t → t.phase ≠ .fault →
    (∃ rest, s.pending = .command 0xF000 :: rest ∨ s.pending = .hardwareReset :: rest) ∧
      SameRegisters t State.reset

/-- R101: outside FAULT exactly PUSH and FINAL outside ABSORB and RDTAG outside DONE raise SEQ; in FAULT
INIT, PUSH, FINAL and RDTAG are rejected and no cause is recorded. -/
def Obligations.WrongPhaseRaisesSeq : Prop :=
  (∀ (i : Instr) (s : State), s.phase ≠ .fault → s.cause ≠ .seq →
      ∃ t, exec i s = .next t ∧
        (t.cause = .seq ↔
          ((i = .final ∨ ∃ b, i = .push b) ∧ s.phase ≠ .absorb) ∨ (i = .rdtag ∧ s.phase ≠ .done))) ∧
    (∀ (i : Instr) (s : State), s.phase = .fault →
      (i = .init ∨ (∃ b, i = .push b) ∨ i = .final ∨ i = .rdtag) →
        exec i s = .next { s with responses := s.responses ++ [⟨true, 0⟩] })

/-- R102, R89: a PUSH in ABSORB at LEN = 2^61 - 1 stores nothing and faults with LENOVF. -/
def Obligations.PushAtTheLengthLimitFaults : Prop :=
  ∀ (b : Byte) (s : State), s.phase = .absorb → s.len.toNat = 2 ^ 61 - 1 →
    exec (.push b) s =
      .next { s with phase := .fault, cause := .lenovf, fcmd := 0x2000 + b.zeroExtend 16,
                     responses := s.responses ++ [⟨true, 0⟩] }

/-- R98: a fault record names a word its cause can come from; every step keeps this. -/
def Obligations.FaultRecordNamesItsWord : Prop :=
  ∀ s t : State, FaultWordSound s → step s = .next t → FaultWordSound t

/-! ## The commands -/

/-- R95: NOP runs in every phase and changes nothing but the response stream. -/
def Obligations.NopKeepsEveryRegister : Prop :=
  ∀ s : State, exec .nop s = .next { s with responses := s.responses ++ [⟨false, 0⟩] }

/-- R87: INIT outside FAULT. BUF, CAUSE and FCMD are not written. -/
def Obligations.InitOpensAMessage : Prop :=
  ∀ s : State, s.phase ≠ .fault →
    exec .init s =
      .next { s with h := #v[0x6A09E667, 0xBB67AE85, 0x3C6EF372, 0xA54FF53A,
                             0x510E527F, 0x9B05688C, 0x1F83D9AB, 0x5BE0CD19],
                     cnt := 0, len := 0, tag := 0, phase := .absorb,
                     responses := s.responses ++ [⟨false, 0⟩] }

/-- R88: PUSH of a byte that does not fill the block stores it at BUF[CNT] and counts it. -/
def Obligations.PushStoresTheByteAndCounts : Prop :=
  ∀ (b : Byte) (s : State), s.phase = .absorb → s.len.toNat < 2 ^ 61 - 1 → s.cnt ≠ 63 →
    exec (.push b) s =
      .next { s with buf := s.buf.setIfInBounds s.cnt.toNat b, len := s.len + 1, cnt := s.cnt + 1,
                     responses := s.responses ++ [⟨false, 0⟩] }

/-- R88: PUSH of the byte that fills the block compresses the block that includes it. -/
def Obligations.PushOfTheLastByteCompresses : Prop :=
  ∀ (b : Byte) (s : State), s.phase = .absorb → s.len.toNat < 2 ^ 61 - 1 → s.cnt = 63 →
    exec (.push b) s =
      .next { s with buf := s.buf.setIfInBounds 63 b, len := s.len + 1, cnt := 0,
                     h := compress s.h (s.buf.setIfInBounds 63 b),
                     responses := s.responses ++ [⟨false, 0⟩] }

/-- R90, R84, R78: FINAL in ABSORB, for every CNT, LEN, H and BUF: the first pass ends with the one or
two blocks of the padded tail, the second pass is one block, TAG is the first word byte-swapped. -/
def Obligations.FinalRunsBothPasses : Prop :=
  ∀ s : State, s.phase = .absorb →
    let rest := paddedTail (memRead s.buf 0 s.cnt.toNat) s.len.toNat
    let d1 := absorbBlocks s.h rest (if s.cnt.toNat ≤ 55 then 1 else 2)
    let block := blockAt (digestBytes d1 ++ [0x80] ++ List.replicate 29 0 ++ [0x01, 0x00]) 0
    let h := compress iv block
    exec .final s =
      .next { s with buf := block, h := h, tag := bswap32 h[0], cnt := 0, phase := .done,
                     responses := s.responses ++ [⟨false, 0⟩] }

/-- R93: RDTAG in DONE answers TAG and writes no register. -/
def Obligations.RdtagReadsTheTag : Prop :=
  ∀ s : State, s.phase = .done →
    exec .rdtag s = .next { s with responses := s.responses ++ [⟨false, s.tag⟩] }

/-- R94: RDSTAT in every phase answers STATUS and writes no register. -/
def Obligations.RdstatReadsTheStatus : Prop :=
  ∀ s : State,
    exec .rdstat s =
      .next { s with responses :=
                s.responses ++ [⟨false, s.fcmd ++ 0x00#8 ++ causeCode s.cause ++ 0#2 ++ s.phase.code⟩] }

/-- R96: RST in every phase writes every register with zero. -/
def Obligations.RstZeroesEveryRegister : Prop :=
  ∀ s : State,
    exec .rst s =
      .next { phase := .idle, h := Vector.replicate 8 0, buf := Vector.replicate 64 0, cnt := 0,
              len := 0, tag := 0, cause := .none, fcmd := 0, pending := s.pending,
              responses := s.responses ++ [⟨false, 0⟩] }

/-- Frame of PUSH (R88, R108): only BUF[CNT] is stored to, and nothing if the response is `err`; TAG
never changes, nor the fault record of an executed PUSH. -/
def Obligations.PushFrame : Prop :=
  ∀ (b : Byte) (s t : State), exec (.push b) s = .next t →
    (∀ a, a ≠ s.cnt.toNat → memRead t.buf a 1 = memRead s.buf a 1) ∧
    t.tag = s.tag ∧ t.pending = s.pending ∧
    (s.cnt ≠ 63 → t.h = s.h) ∧
    (t.responses = s.responses ++ [⟨true, 0⟩] →
      t.buf = s.buf ∧ t.h = s.h ∧ t.cnt = s.cnt ∧ t.len = s.len) ∧
    (t.responses = s.responses ++ [⟨false, 0⟩] →
      t.phase = s.phase ∧ t.cause = s.cause ∧ t.fcmd = s.fcmd)

/-- Frame of the commands that store no byte of BUF (R87, R93, R94, R95): INIT, RDTAG, RDSTAT, NOP. -/
def Obligations.NonStoringFrame : Prop :=
  ∀ (i : Instr) (s t : State), i = .init ∨ i = .rdtag ∨ i = .rdstat ∨ i = .nop →
    exec i s = .next t →
      (∀ a, memRead t.buf a 1 = memRead s.buf a 1) ∧ t.pending = s.pending ∧
      (i ≠ .init → t.h = s.h ∧ t.cnt = s.cnt ∧ t.len = s.len ∧ t.tag = s.tag) ∧
      (i = .init ∧ s.phase ≠ .fault → t.cause = s.cause ∧ t.fcmd = s.fcmd) ∧
      (i = .nop ∨ i = .rdstat → SameRegisters s t)

/-- R45: RDTAG, RDSTAT and NOP change no register, once or twice, and repeating a read answers the same;
INIT after INIT and RST after RST change no register more; FINAL after FINAL faults; each executed PUSH
counts one more byte. -/
def Obligations.RepeatedCommands : Prop :=
  (∀ (i : Instr) (s t u : State), (i = .rdtag ∧ s.phase = .done) ∨ i = .rdstat ∨ i = .nop →
      exec i s = .next t → exec i t = .next u →
        SameRegisters s t ∧ SameRegisters s u ∧
          ∃ r, t.responses = s.responses ++ [r] ∧ u.responses = s.responses ++ [r, r]) ∧
    (∀ s t u : State, s.phase ≠ .fault → exec .init s = .next t → exec .init t = .next u →
      SameRegisters t u) ∧
    (∀ s t u : State, exec .rst s = .next t → exec .rst t = .next u → SameRegisters t u) ∧
    (∀ s t : State, s.phase = .absorb → exec .final s = .next t →
      exec .final t = .next { t with phase := .fault, cause := .seq, fcmd := 0x3000,
                                     responses := t.responses ++ [⟨true, 0⟩] }) ∧
    (∀ (b : Byte) (s t : State), s.phase = .absorb → s.len.toNat < 2 ^ 61 - 1 →
      exec (.push b) s = .next t → t.len.toNat = s.len.toNat + 1)

/-! ## Status and reset -/

/-- R24: the fields of STATUS and the bits that always read 0. -/
def Obligations.StatusWordLayout : Prop :=
  ∀ s : State,
    (statusWord s).extractLsb' 16 16 = s.fcmd ∧ (statusWord s).extractLsb' 8 8 = 0 ∧
    (statusWord s).extractLsb' 4 4 =
      (match s.cause with | .none => 0 | .illop => 1 | .illfld => 2 | .seq => 3 | .lenovf => 4) ∧
    (statusWord s).extractLsb' 2 2 = 0 ∧
    (statusWord s).extractLsb' 0 2 =
      (match s.phase with | .idle => 0 | .absorb => 1 | .done => 2 | .fault => 3)

/-- R30: every register is zero in the reset state, after hardware reset and after RST. -/
def Obligations.ResetZeroesEveryRegister : Prop :=
  (State.reset.phase = .idle ∧ (∀ j : Fin 8, State.reset.h[j] = 0) ∧
      (∀ j : Fin 64, State.reset.buf[j] = 0) ∧ State.reset.cnt = 0 ∧ State.reset.len = 0 ∧
      State.reset.tag = 0 ∧ State.reset.cause = .none ∧ State.reset.fcmd = 0 ∧
      statusWord State.reset = 0) ∧
    (∀ s t : State, ∀ rest, s.pending = .hardwareReset :: rest ∨ s.pending = .command 0xF000 :: rest →
      step s = .next t → SameRegisters t State.reset)

/-- R116: RST and hardware reset leave the same registers; RST has the response (0, 0), hardware reset
has none; no later response can tell them apart. -/
def Obligations.RstAndHardwareResetAgree : Prop :=
  ∀ (s : State) (later : List HostAction),
    ∃ t u, runActions s [.command 0xF000] = .next t ∧ runActions s [.hardwareReset] = .next u ∧
      SameRegisters t u ∧ t.responses = s.responses ++ [⟨false, 0⟩] ∧ u.responses = s.responses ∧
      ∃ t' u', runActions t later = .next t' ∧ runActions u later = .next u' ∧
        t'.responses.drop t.responses.length = u'.responses.drop u.responses.length

/-- R29 at the reset state. -/
def Obligations.ResetStateIsSound : Prop := Sound State.reset

/-- R29: every step keeps the invariant between commands. -/
def Obligations.EveryStepKeepsSound : Prop :=
  ∀ s t : State, Sound s → step s = .next t → Sound t

/-! ## Transactions -/

/-- R29 (c): after INIT and the PUSHes of `m` the engine holds exactly `m`. -/
def Obligations.PushedBytesAreAbsorbed : Prop :=
  ∀ (s : State) (m : List Byte), s.phase ≠ .fault → m.length ≤ 2 ^ 61 - 1 →
    ∃ t, runActions s (issueWords (encode .init :: m.map fun b => encode (.push b))) = .next t ∧
      Absorbing t m ∧ t.responses = s.responses ++ List.replicate (m.length + 1) ⟨false, 0⟩

/-- R92, R91: from any state outside FAULT, a transaction with any number of RDTAGs at its end and any
NOPs and RDSTATs inserted answers 0 to each other command and then the tag of its message, and ends in
the state of R91, whatever the state before it was. -/
def Obligations.TransactionAnswersTheChecksum : Prop :=
  ∀ (s : State) (m : List Byte) (k : Nat) (ws : List CmdWord),
    s.phase ≠ .fault → m.length ≤ 2 ^ 61 - 1 →
    ws.filter notNopOrRdstat =
      [0x1000] ++ m.map (fun b => encode (.push b)) ++ [0x3000] ++ List.replicate (k + 1) 0x4000 →
    ∃ t, runActions s (issueWords ws) = .next t ∧
      ((ws.zip (t.responses.drop s.responses.length)).filter fun p => notNopOrRdstat p.1).map (·.2) =
        List.replicate (m.length + 2) ⟨false, 0⟩ ++ List.replicate (k + 1) ⟨false, tag32 m⟩ ∧
      Closed t m ∧ t.pending = [] ∧ (FaultRecordSound s → t.cause = .none ∧ t.fcmd = 0)

/-- R92: NOP and RDSTAT may stand anywhere in a command stream without changing the other responses or
any register at the end. -/
def Obligations.NopAndRdstatAreTransparent : Prop :=
  ∀ (s : State) (ws : List CmdWord),
    ∃ t u, runActions s (issueWords ws) = .next t ∧
      runActions s (issueWords (ws.filter notNopOrRdstat)) = .next u ∧
      SameRegisters t u ∧
      ((ws.zip (t.responses.drop s.responses.length)).filter fun p => notNopOrRdstat p.1).map (·.2) =
        u.responses.drop s.responses.length

/-- R31: from an INIT on, every response depends on the commands alone, not on what the engine did
before. -/
def Obligations.MessagesAreIndependent : Prop :=
  ∀ (s s' : State) (ws : List CmdWord),
    s.phase ≠ .fault → FaultRecordSound s → s'.phase ≠ .fault → FaultRecordSound s' →
      ∃ t t', runActions s (issueWords (encode .init :: ws)) = .next t ∧
        runActions s' (issueWords (encode .init :: ws)) = .next t' ∧
        t.responses.drop s.responses.length = t'.responses.drop s'.responses.length

/-! ## The checksum function -/

/-- R68, R69: rotation re-enters the low bits at the top, SHR divides; Ch selects and Maj votes bit by
bit. -/
def Obligations.WordFunctionsBitByBit : Prop :=
  (∀ (x : Word) (n i : Nat), 0 < n → n < 32 → i < 32 →
      (rotr x n).getLsbD i = x.getLsbD ((i + n) % 32)) ∧
    (∀ (x : Word) (n : Nat), (shr x n).toNat = x.toNat / 2 ^ n) ∧
    (∀ (x y z : Word) (i : Nat), (ch x y z).getLsbD i = if x.getLsbD i then y.getLsbD i else z.getLsbD i) ∧
    (∀ (x y z : Word) (i : Nat),
      (maj x y z).getLsbD i =
        decide (2 ≤ (x.getLsbD i).toNat + (y.getLsbD i).toNat + (z.getLsbD i).toNat))

/-- R70: IV[i] is floor(sqrt(p) * 2^32) mod 2^32 for the i-th prime p. -/
def Obligations.InitialWordsAreSquareRoots : Prop :=
  ∀ i : Fin 8, ∃ p, ((List.range 20).filter fun n => decide n.Prime)[i.val]? = some p ∧
    iv[i].toNat = Nat.sqrt (p * 2 ^ 64) % 2 ^ 32

/-- R71: K[t] is floor(cbrt(p) * 2^32) mod 2^32 for the t-th prime p. -/
def Obligations.RoundConstantsAreCubeRoots : Prop :=
  roundConstants.length = 64 ∧
    ∀ t : Fin 64, ∃ p r k, ((List.range 312).filter fun n => decide n.Prime)[t.val]? = some p ∧
      r ^ 3 ≤ p * 2 ^ 96 ∧ p * 2 ^ 96 < (r + 1) ^ 3 ∧
      roundConstants[t.val]? = some k ∧ k.toNat = r % 2 ^ 32

/-- R74: the message schedule has 64 words, the sixteen of the block and then the recurrence. -/
def Obligations.ScheduleFollowsTheRecurrence : Prop :=
  ∀ b : Block, (schedule b).length = 64 ∧
    (∀ (t : Nat) (h : t < 16),
      (schedule b)[t]? = some (be32 b[4 * t] b[4 * t + 1] b[4 * t + 2] b[4 * t + 3])) ∧
    (∀ t, 16 ≤ t → t < 64 → ∃ w2 w7 w15 w16,
      (schedule b)[t - 2]? = some w2 ∧ (schedule b)[t - 7]? = some w7 ∧
      (schedule b)[t - 15]? = some w15 ∧ (schedule b)[t - 16]? = some w16 ∧
      (schedule b)[t]? = some (ssig1 w2 + w7 + ssig0 w15 + w16))

/-- R72: padding is 0x80, the least number of zeros and the 64-bit big-endian bit length, and makes
NB(n) whole blocks. -/
def Obligations.PaddingMakesWholeBlocks : Prop :=
  ∀ m : List Byte, m.length < 2 ^ 61 →
    (∃ (z : Nat) (last : List Byte), z < 64 ∧ (m.length + 1 + z + 8) % 64 = 0 ∧ last.length = 8 ∧
      last.foldl (fun n b => 256 * n + b.toNat) 0 = 8 * m.length ∧
      pad m = m ++ [0x80] ++ List.replicate z 0 ++ last) ∧
    (pad m).length = 64 * ((m.length + 8) / 64 + 1)

/-- R84: the incremental form: the padded message is the whole blocks and the padded tail, and the pass
is the state after the whole blocks compressed with the one or two blocks of the tail. -/
def Obligations.PassIsIncremental : Prop :=
  ∀ m : List Byte, m.length < 2 ^ 61 →
    let q := m.length / 64
    let tail := m.drop (64 * q)
    pad m = m.take (64 * q) ++ paddedTail tail m.length ∧
      (paddedTail tail m.length).length = (if m.length % 64 ≤ 55 then 64 else 128) ∧
      sha256Words m =
        absorbBlocks (absorbBlocks iv m q) (paddedTail tail m.length)
          (if m.length % 64 ≤ 55 then 1 else 2)

/-- R78: the second pass is always one compression of the digest's one padded block. -/
def Obligations.SecondPassIsOneBlock : Prop :=
  ∀ m : List Byte, m.length < 2 ^ 61 →
    let d1 := sha256 m
    pad d1 = d1 ++ [0x80] ++ List.replicate 23 0 ++ [0, 0, 0, 0, 0, 0, 1, 0] ∧
      blockWords (blockAt (pad d1) 0) =
        (sha256Words m).toList ++ [0x80000000, 0, 0, 0, 0, 0, 0, 0x00000100] ∧
      sha256 d1 = digestBytes (compress iv (blockAt (pad d1) 0))

/-- R81: the tag is the first state word of the second pass with its bytes reversed. -/
def Obligations.TagIsTheSwappedFirstWord : Prop :=
  ∀ m : List Byte, tag32 m = bswap32 (sha256Words (sha256 m))[0]

/-- R40: the tag serialised little-endian is the first four bytes of the second digest. -/
def Obligations.HeaderBytesAreTheDigestPrefix : Prop :=
  ∀ m : List Byte, bytesLE32 (tag32 m) = (dsha256 m).take 4

/-- R77: `checksum` is defined exactly for messages of at most 2^61 - 1 bytes, and is the tag there. -/
def Obligations.ChecksumDefinedUpToTheLimit : Prop :=
  ∀ m : List Byte,
    ((checksum m).isSome = true ↔ m.length ≤ 2 ^ 61 - 1) ∧
      (m.length ≤ 2 ^ 61 - 1 → checksum m = some (tag32 m))

/-- R83, "distinct messages with equal tags exist", by two of them: the bytes 01 74 78 and 01 B0 59 both
have the tag 0xB1512898. The two messages were found by computing the tags of R67 to R81; the spec names
none. -/
def Obligations.DistinctMessagesShareATag : Prop :=
  ([0x01, 0x74, 0x78] : List Byte) ≠ [0x01, 0xB0, 0x59] ∧
    tag32 [0x01, 0x74, 0x78] = 0xB1512898 ∧ tag32 [0x01, 0xB0, 0x59] = 0xB1512898

/-- R76, R80: the digests and tags the rules give for the empty message and for "abc". -/
def Obligations.KnownDigestsAndTags : Prop :=
  sha256Words [] = #v[0xE3B0C442, 0x98FC1C14, 0x9AFBF4C8, 0x996FB924,
                      0x27AE41E4, 0x649B934C, 0xA495991B, 0x7852B855] ∧
    sha256Words [0x61, 0x62, 0x63] = #v[0xBA7816BF, 0x8F01CFEA, 0x414140DE, 0x5DAE2223,
                                        0xB00361A3, 0x96177A9C, 0xB410FF61, 0xF20015AD] ∧
    tag32 [] = 0xE2E0F65D ∧ tag32 [0x61, 0x62, 0x63] = 0xC2428B4F

/-! ## The port -/

/-- R114, R115: while `rst_n` is 0 the port is silent, and the cycle leaves every register at its reset
value with no response and no command in progress: one that was is abandoned and is not answered later.
That the word then offered need not be held is the model's choice, log entry 6. -/
def Obligations.ResetSilencesThePort : Prop :=
  ∀ (p : Port) (pins : HostPins), pins.rstN = false →
    (enginePins p pins.rstN).cmdReady = false ∧ (enginePins p pins.rstN).rspValid = false ∧
      ∃ q, portCycle p pins = .next q ∧ SameRegisters q.engine State.reset ∧
        q.engine.responses = p.engine.responses ∧
        (q.channel = .ready ∨ ∃ n, q.channel = .settling n) ∧ q.offered = none

/-- R51: `cmd_ready` and `rsp_valid` are never 1 together; from acceptance to delivery no other word is
accepted and the engine keeps its state; a response not taken is held unchanged; a response delivered
leaves no command in progress, so that it is the only one of its command; the engine keeps its state in every cycle that delivers none, whether it waits for a word or is not yet ready for one. That
the registers change in the cycle of the delivery is the model's choice, log entry 7. -/
def Obligations.OneCommandInProgress : Prop :=
  ∀ (p q : Port) (pins : HostPins), pins.rstN = true → portCycle p pins = .next q →
    ¬((enginePins p true).cmdReady = true ∧ (enginePins p true).rspValid = true) ∧
    ((enginePins p true).cmdReady = true → pins.cmdValid = true →
      q.engine = p.engine ∧ (q.channel = .presenting pins.cmd ∨ ∃ n, q.channel = .working n pins.cmd)) ∧
    (p.channel = .ready → (enginePins p true).cmdReady = true ∧
      (pins.cmdValid = false →
        q.engine = p.engine ∧ (q.channel = .ready ∨ ∃ n, q.channel = .settling n))) ∧
    (∀ n, p.channel = .settling n →
      (enginePins p true).cmdReady = false ∧ (enginePins p true).rspValid = false ∧
        q.engine = p.engine ∧
        ((n = 0 ∧ q.channel = .ready) ∨ ∃ k, n = k + 1 ∧ q.channel = .settling k)) ∧
    (∀ n w, p.channel = .working n w →
      (enginePins p true).cmdReady = false ∧ q.engine = p.engine ∧
        ((n = 0 ∧ q.channel = .presenting w) ∨ ∃ k, n = k + 1 ∧ q.channel = .working k w)) ∧
    (∀ w, p.channel = .presenting w →
      (enginePins p true).cmdReady = false ∧ (enginePins p true).rspValid = true ∧
        (pins.rspReady = false → q.engine = p.engine ∧ q.channel = .presenting w ∧
          enginePins q true = enginePins p true) ∧
        (pins.rspReady = true → executeWord w p.engine = .next q.engine ∧
          (q.channel = .ready ∨ ∃ n, q.channel = .settling n) ∧
          q.engine.responses = p.engine.responses ++
            [⟨(enginePins p true).rspErr, (enginePins p true).rspData⟩]))

/-- R124: an accepted command is answered, and `cmd_ready` rises again, after a finite number of
cycles, whatever the free cycle counts are. -/
def Obligations.EveryAcceptedCommandFinishes : Prop :=
  ∀ (p : Port) (w : CmdWord), p.channel = .ready → (p.offered = none ∨ p.offered = some w) →
    ∃ (n : Nat) (q : Port),
      portRun p (⟨true, true, w, false⟩ :: List.replicate n ⟨true, false, 0, true⟩) = .next q ∧
        q.channel = .ready ∧ executeWord w p.engine = .next q.engine

/-- R51, R115: every run of the port is a run of whole commands and resets: each command of it was on
the port while `cmd_valid` was 1, or was in progress at the start, and the resets of it are as many as
the cycles with `rst_n` = 0. -/
def Obligations.PortRunIsACommandRun : Prop :=
  ∀ (pins : List HostPins) (p q : Port), portRun p pins = .next q →
    ∃ as : List HostAction, runActions p.engine as = .next (withActions q.engine []) ∧
      as.count .hardwareReset = (pins.filter fun x => !x.rstN).length ∧
      ∀ w, .command w ∈ as →
        (∃ x ∈ pins, x.rstN = true ∧ x.cmdValid = true ∧ x.cmd = w) ∨ p.channel = .presenting w ∨
          ∃ n, p.channel = .working n w

/-- R51, 93 U14: the port refuses exactly the cycles in which the host breaks the handshake outside
reset, and never faults. The word the host must hold after a cycle is the one it offered in that cycle
outside reset while `cmd_ready` was 0. The form of the refusal, and that reset ends the duty to hold, are
the model's choice, log entry 6. -/
def Obligations.PortRefusesOnlyBrokenHandshakes : Prop :=
  ∀ (p : Port) (pins : HostPins),
    ((∃ r, portCycle p pins = .refused r) ↔
      pins.rstN = true ∧ ∃ w, p.offered = some w ∧ ¬(pins.cmdValid = true ∧ pins.cmd = w)) ∧
    (¬∃ r, portCycle p pins = .fault r) ∧
    ∀ (q : Port) (w : CmdWord), portCycle p pins = .next q →
      (q.offered = some w ↔
        pins.rstN = true ∧ pins.cmdValid = true ∧ pins.cmd = w ∧ (enginePins p true).cmdReady = false)

/-! ## Several engines, the assembler -/

/-- R112: engine instances "may run at the same time in any interleaving and each computes what it would
compute alone". -/
def Obligations.InstancesComputeAlone : Prop :=
  ∀ (engines : List State) (schedule : List Nat),
    ∃ es, runSchedule engines schedule = .next es ∧ es.length = engines.length ∧
      ∀ (k : Nat) (s : State), engines[k]? = some s →
        ∃ t, Host.Core.run core (schedule.count k) s = .next t ∧ es[k]? = some t

/-- R63: the expansions. A text or a whole number of pairs of hexadecimal digits stands for its bytes:
PUSHS and PUSHX are one PUSH of each in order, CHECKSUM of either form is the whole transaction on them;
PUSHN is its repeated PUSH. -/
def Obligations.PseudoInstructionsExpand : Prop :=
  (∀ text : List Nat, (AsmLine.pushs text).wellFormed = true →
      expandLine (.pushs text) = text.map fun c => BitVec.ofNat 16 (0x2000 + c)) ∧
    (∀ text : List Nat, (AsmLine.checksumText text).wellFormed = true →
      issueWords (expandLine (.checksumText text)) = transaction (text.map (BitVec.ofNat 8))) ∧
    (∀ b n : Nat, (AsmLine.pushn b n).wellFormed = true →
      expandLine (.pushn b n) = List.replicate n (BitVec.ofNat 16 (0x2000 + b))) ∧
    (∀ digits : List Nat, (AsmLine.pushx digits).wellFormed = true →
      ∃ pairs : List (Nat × Nat), digits = pairs.flatMap (fun p => [p.1, p.2]) ∧
        (∀ p ∈ pairs, p.1 < 16 ∧ p.2 < 16) ∧
        expandLine (.pushx digits) =
          pairs.map fun p => BitVec.ofNat 16 (0x2000 + 16 * p.1 + p.2)) ∧
    (∀ digits : List Nat, (AsmLine.checksumHex digits).wellFormed = true →
      ∃ pairs : List (Nat × Nat), digits = pairs.flatMap (fun p => [p.1, p.2]) ∧
        (∀ p ∈ pairs, p.1 < 16 ∧ p.2 < 16) ∧
        issueWords (expandLine (.checksumHex digits)) =
          transaction (pairs.map fun p => BitVec.ofNat 8 (16 * p.1 + p.2)))

/-- R62: the table of lines, and an operand out of range is an assembly error. -/
def Obligations.AssemblerLinesEncode : Prop :=
  assembleLine "NOP" = some [0x0000] ∧ assembleLine "INIT" = some [0x1000] ∧
    assembleLine "PUSH 97" = some [0x2061] ∧ assembleLine "PUSH 0x61" = some [0x2061] ∧
    assembleLine "PUSH 'a' ; the letter" = some [0x2061] ∧ assembleLine "FINAL" = some [0x3000] ∧
    assembleLine "RDTAG" = some [0x4000] ∧ assembleLine "RDSTAT" = some [0x5000] ∧
    assembleLine "RST" = some [0xF000] ∧ assembleLine ".word 0x6000" = some [0x6000] ∧
    assembleLine "; nothing" = some [] ∧ assembleLine "PUSH 256" = none
end

