-- ==== Sys2Proof/Laws/State.lean ====
section
/-! SUPPORT. One lemma per field and update of State, and the projections of the states the shared
operations build. -/

namespace Sys2Proof.Machine

section Respond
variable (r : Response) (s : State)

@[simp] theorem respond_phase : (respond r s).phase = s.phase := rfl
@[simp] theorem respond_h : (respond r s).h = s.h := rfl
@[simp] theorem respond_buf : (respond r s).buf = s.buf := rfl
@[simp] theorem respond_cnt : (respond r s).cnt = s.cnt := rfl
@[simp] theorem respond_len : (respond r s).len = s.len := rfl
@[simp] theorem respond_tag : (respond r s).tag = s.tag := rfl
@[simp] theorem respond_cause : (respond r s).cause = s.cause := rfl
@[simp] theorem respond_fcmd : (respond r s).fcmd = s.fcmd := rfl
@[simp] theorem respond_pending : (respond r s).pending = s.pending := rfl
@[simp] theorem respond_responses : (respond r s).responses = s.responses ++ [r] := rfl

end Respond

section ResetRegisters
variable (s : State)

@[simp] theorem resetRegisters_phase : (resetRegisters s).phase = .idle := rfl
@[simp] theorem resetRegisters_h : (resetRegisters s).h = Vector.replicate 8 0 := rfl
@[simp] theorem resetRegisters_buf : (resetRegisters s).buf = Vector.replicate 64 0 := rfl
@[simp] theorem resetRegisters_cnt : (resetRegisters s).cnt = 0 := rfl
@[simp] theorem resetRegisters_len : (resetRegisters s).len = 0 := rfl
@[simp] theorem resetRegisters_tag : (resetRegisters s).tag = 0 := rfl
@[simp] theorem resetRegisters_cause : (resetRegisters s).cause = .none := rfl
@[simp] theorem resetRegisters_fcmd : (resetRegisters s).fcmd = 0 := rfl
@[simp] theorem resetRegisters_pending : (resetRegisters s).pending = s.pending := rfl
@[simp] theorem resetRegisters_responses : (resetRegisters s).responses = s.responses := rfl

end ResetRegisters

section Reject
variable (c : Cause) (w : CmdWord) (s : State)

/-- Fault entry outside FAULT, R104. -/
theorem reject_outside (hp : s.phase ≠ .fault) :
    reject c w s = { s with phase := .fault, cause := c, fcmd := w,
                            responses := s.responses ++ [.rejected] } := by
  simp [reject, hp, respond]

/-- A rejection in FAULT writes no register, R105 and R107. -/
theorem reject_inside (hp : s.phase = .fault) :
    reject c w s = { s with responses := s.responses ++ [.rejected] } := by
  simp [reject, hp, respond]

@[simp] theorem reject_phase : (reject c w s).phase = .fault := by
  unfold reject; split <;> simp [*]
@[simp] theorem reject_h : (reject c w s).h = s.h := by unfold reject; split <;> rfl
@[simp] theorem reject_buf : (reject c w s).buf = s.buf := by unfold reject; split <;> rfl
@[simp] theorem reject_cnt : (reject c w s).cnt = s.cnt := by unfold reject; split <;> rfl
@[simp] theorem reject_len : (reject c w s).len = s.len := by unfold reject; split <;> rfl
@[simp] theorem reject_tag : (reject c w s).tag = s.tag := by unfold reject; split <;> rfl
@[simp] theorem reject_pending : (reject c w s).pending = s.pending := by
  unfold reject; split <;> rfl
@[simp] theorem reject_responses : (reject c w s).responses = s.responses ++ [.rejected] := by
  unfold reject; split <;> rfl

end Reject

section WithActions
variable (s : State) (as : List HostAction)

@[simp] theorem withActions_phase : (withActions s as).phase = s.phase := rfl
@[simp] theorem withActions_h : (withActions s as).h = s.h := rfl
@[simp] theorem withActions_buf : (withActions s as).buf = s.buf := rfl
@[simp] theorem withActions_cnt : (withActions s as).cnt = s.cnt := rfl
@[simp] theorem withActions_len : (withActions s as).len = s.len := rfl
@[simp] theorem withActions_tag : (withActions s as).tag = s.tag := rfl
@[simp] theorem withActions_cause : (withActions s as).cause = s.cause := rfl
@[simp] theorem withActions_fcmd : (withActions s as).fcmd = s.fcmd := rfl
@[simp] theorem withActions_pending : (withActions s as).pending = as := rfl
@[simp] theorem withActions_responses : (withActions s as).responses = s.responses := rfl

@[simp] theorem withActions_withActions (bs : List HostAction) :
    withActions (withActions s as) bs = withActions s bs := rfl

end WithActions

@[simp] theorem withFetchWord_pending (s : State) (nbits w : Nat) :
    (s.withFetchWord nbits w).pending = [.command (tableWord nbits w)] := rfl

end Sys2Proof.Machine
end

