-- ==== Sys2Proof/Laws/Ops.lean ====
section
/-! SUPPORT. What each shared operation can do, said once: the block buffer, the checks of `execute`, one
step and a run of steps. -/

namespace Sys2Proof.Machine

/-- A byte after MemWrite: the written string's byte inside its range, the old byte outside it. -/
theorem memWrite_getElem (bs : List Byte) (buf : Block) (addr j : Nat) (hj : j < 64) :
    (memWrite buf addr bs)[j] =
      if h : addr ≤ j ∧ j < addr + bs.length then bs[j - addr]'(by omega) else buf[j] := by
  induction bs generalizing buf addr with
  | nil => simp [memWrite]
  | cons b bs ih =>
    rw [memWrite, ih, Vector.getElem_setIfInBounds]
    by_cases h1 : addr = j
    · subst h1; simp
    · by_cases h2 : addr + 1 ≤ j ∧ j < addr + 1 + bs.length
      · have h3 : addr ≤ j ∧ j < addr + (b :: bs).length := by simp; omega
        have h4 : j - addr = (j - (addr + 1)) + 1 := by omega
        rw [dif_pos h2, dif_pos h3]
        simp only [h4, List.getElem_cons_succ]
      · have h3 : ¬(addr ≤ j ∧ j < addr + (b :: bs).length) := by simp; omega
        rw [dif_neg h2, dif_neg h3, if_neg h1]

/-- MemWrite leaves every byte outside its range alone. -/
theorem memWrite_getElem_outside (bs : List Byte) (buf : Block) (addr j : Nat) (hj : j < 64)
    (h : j < addr ∨ addr + bs.length ≤ j) : (memWrite buf addr bs)[j] = buf[j] := by
  rw [memWrite_getElem]
  exact dif_neg (by omega)

/-- MemWrite of 64 bytes from address 0 replaces the whole buffer. -/
theorem memWrite_whole (buf buf' : Block) (bs : List Byte) (h : bs.length = 64) :
    memWrite buf 0 bs = memWrite buf' 0 bs := by
  ext j hj
  simp [memWrite_getElem, h, hj]

/-- Reading one byte inside the buffer. -/
theorem memRead_one (buf : Block) (a : Nat) (h : a < 64) : memRead buf a 1 = [buf[a]] := by
  simp only [memRead]
  rw [List.drop_eq_getElem_cons (by simpa using h)]
  simp

/-- There is no byte outside the buffer. -/
theorem memRead_one_outside (buf : Block) (a : Nat) (h : 64 ≤ a) : memRead buf a 1 = [] := by
  simp [memRead, h]

/-- A well-formed command is rejected with the cause of its first failed check, or performed. -/
theorem issue_cases (i : Instr) (f : State → State) (s : State) :
    (∃ c, failedCheck i s = some c ∧ issue i f s = reject c (encode i) s) ∨
      (failedCheck i s = none ∧ issue i f s = f s) := by
  unfold issue
  split
  · exact .inl ⟨_, by assumption, rfl⟩
  · exact .inr ⟨by assumption, rfl⟩

/-- A legal command that is no PUSH at the limit is performed. -/
theorem issue_performs (i : Instr) (f : State → State) (s : State) (hl : legalIn i s.phase = true)
    (ha : atLengthLimit i s = false) : issue i f s = f s := by
  simp [issue, failedCheck, hl, ha]

/-- A command that is not legal in the phase is rejected with cause SEQ. -/
theorem issue_rejects_phase (i : Instr) (f : State → State) (s : State)
    (hl : legalIn i s.phase = false) : issue i f s = reject .seq (encode i) s := by
  simp [issue, failedCheck, hl]

/-- The checks of R103 on the bits of a word are decoding and then the checks of `execute`. -/
theorem rejectionCause_eq (w : CmdWord) (s : State) :
    rejectionCause w s =
      match decode w with
      | .illegal c => some c
      | .command i => failedCheck i s := by
  unfold rejectionCause decode decodeFields Fields.ofWord
  unfold Fields.opDefined Fields.rsvdZero Fields.immAllowed
  dsimp only
  generalize w.extractLsb' 12 4 = op
  generalize w.extractLsb' 8 4 = rsvd
  generalize w.extractLsb' 0 8 = imm
  obtain ⟨o, ho⟩ := op
  have : o < 16 := ho
  by_cases h1 : rsvd = 0#4 <;> by_cases h2 : imm = 0#8 <;> cases hp : s.phase <;>
    interval_cases o <;> simp [h1, h2, failedCheck, legalIn, atLengthLimit, Config.maxLen, hp]

/-- Every command answers a next state (R86: `execute` is total). -/
theorem exec_next (i : Instr) (s : State) : ∃ t, exec i s = .next t := by
  cases i <;> exact ⟨_, rfl⟩

/-- Every command word answers a next state (R86: `execute` is total). -/
theorem executeWord_next (w : CmdWord) (s : State) : ∃ t, executeWord w s = .next t := by
  unfold executeWord
  split
  · exact exec_next _ _
  · exact ⟨_, rfl⟩

/-- A step, by what the host does next. -/
theorem step_cases (s : State) :
    (s.pending = [] ∧ step s = .next s) ∨
      (∃ rest, s.pending = .hardwareReset :: rest ∧
        step s = .next (hardwareReset (withActions s rest))) ∨
      (∃ w i rest, s.pending = .command w :: rest ∧ decode w = .command i ∧
        step s = exec i (withActions s rest)) ∨
      (∃ w c rest, s.pending = .command w :: rest ∧ decode w = .illegal c ∧
        step s = .next (reject c w (withActions s rest))) := by
  unfold step takeAction
  split
  next h => exact .inl ⟨h, rfl⟩
  next a rest h =>
    cases a with
    | hardwareReset => exact .inr (.inl ⟨rest, h, rfl⟩)
    | command w =>
      cases hd : decode w with
      | command i => exact .inr (.inr (.inl ⟨w, i, rest, h, hd, by simp [perform, executeWord, hd]; rfl⟩))
      | illegal c =>
        exact .inr (.inr (.inr ⟨w, c, rest, h, hd, by simp [perform, executeWord, hd]; rfl⟩))

/-- A run is one step and the rest of the run. -/
theorem run_succ (n : Nat) (s t : State) (h : step s = .next t) :
    Host.Core.run core (n + 1) s = Host.Core.run core n t := by
  have h' : core.step s = .next t := h
  simp only [Host.Core.run, h']

/-- A run of `m + n` steps is a run of `m` and then of `n`. -/
theorem run_add (m n : Nat) (s t : State) (h : Host.Core.run core m s = .next t) :
    Host.Core.run core (m + n) s = Host.Core.run core n t := by
  induction m generalizing s with
  | zero => cases h; simp
  | succ m ih =>
    rw [show m + 1 + n = (m + n) + 1 by omega]
    simp only [Host.Core.run] at h ⊢
    cases hs : core.step s with
    | next u => rw [hs] at h; exact ih u h
    | fault r => rw [hs] at h; cases h
    | refused r => rw [hs] at h; cases h

end Sys2Proof.Machine
end

