-- ==== Sys2Proof/Laws/PerInstr.lean ====
section
/-! SUPPORT. One family of statements about every command as syntax: its word fits its row of
spec/opcode_table.json and no other. -/

namespace Sys2Proof.Laws

/-- The match and mask of a command's row in spec/opcode_table.json. -/
def tableRow : Instr → CmdWord × CmdWord
  | .nop => (0x0000, 0xFFFF)
  | .init => (0x1000, 0xFFFF)
  | .push _ => (0x2000, 0xFF00)
  | .final => (0x3000, 0xFFFF)
  | .rdtag => (0x4000, 0xFFFF)
  | .rdstat => (0x5000, 0xFFFF)
  | .rst => (0xF000, 0xFFFF)

/-- The command's word is well-formed (R58) and, under its row's mask, equals its row's match. -/
def EncodingFitsRow.Statement (i : Instr) : Prop :=
  i.wellFormed = true ∧ encode i &&& (tableRow i).2 = (tableRow i).1

theorem EncodingFitsRow.nop : EncodingFitsRow.Statement .nop := by
  unfold EncodingFitsRow.Statement; decide
theorem EncodingFitsRow.init : EncodingFitsRow.Statement .init := by
  unfold EncodingFitsRow.Statement; decide
theorem EncodingFitsRow.push (b : Byte) : EncodingFitsRow.Statement (.push b) := by
  unfold EncodingFitsRow.Statement; revert b; decide +kernel
theorem EncodingFitsRow.final : EncodingFitsRow.Statement .final := by
  unfold EncodingFitsRow.Statement; decide
theorem EncodingFitsRow.rdtag : EncodingFitsRow.Statement .rdtag := by
  unfold EncodingFitsRow.Statement; decide
theorem EncodingFitsRow.rdstat : EncodingFitsRow.Statement .rdstat := by
  unfold EncodingFitsRow.Statement; decide
theorem EncodingFitsRow.rst : EncodingFitsRow.Statement .rst := by
  unfold EncodingFitsRow.Statement; decide

end Sys2Proof.Laws
end

