-- ==== Sys2Proof/Laws/Port.lean ====
section
/-! SUPPORT. The port layer: the fields of a port one cycle later, and what one clock cycle can do. -/

namespace Sys2Proof.Machine

section After
variable (p : Port) (t : State) (c : Channel) (o : Option CmdWord)

@[simp] theorem Port.after_engine : (p.after t c o).engine = t := rfl
@[simp] theorem Port.after_channel : (p.after t c o).channel = c := rfl
@[simp] theorem Port.after_offered : (p.after t c o).offered = o := rfl
@[simp] theorem Port.after_serial : (p.after t c o).serial = p.serial := rfl
@[simp] theorem Port.after_cycle : (p.after t c o).cycle = p.cycle + 1 := rfl

end After

theorem settle_cases (n : Nat) :
    (n = 0 ∧ settle n = .ready) ∨ ∃ k, n = k + 1 ∧ settle n = .settling k := by
  cases n with
  | zero => exact .inl ⟨rfl, rfl⟩
  | succ k => exact .inr ⟨k, rfl, rfl⟩

theorem answerAfter_cases (w : CmdWord) (n : Nat) :
    (n = 0 ∧ answerAfter w n = .presenting w) ∨ ∃ k, n = k + 1 ∧ answerAfter w n = .working k w := by
  cases n with
  | zero => exact .inl ⟨rfl, rfl⟩
  | succ k => exact .inr ⟨k, rfl, rfl⟩

/-- A command issued appends one response and keeps the host actions, if performing it does. -/
theorem issue_response (i : Instr) (f : State → State) (s : State)
    (hf : ∃ r, (f s).responses = s.responses ++ [r] ∧ (f s).pending = s.pending) :
    ∃ r, (issue i f s).responses = s.responses ++ [r] ∧ (issue i f s).pending = s.pending := by
  obtain ⟨c, -, h⟩ | ⟨-, h⟩ := issue_cases i f s
  · exact ⟨_, h ▸ reject_responses c _ s, h ▸ reject_pending c _ s⟩
  · rwa [h]

/-- Every command appends one response and keeps the host actions (R54). -/
theorem exec_response {i : Instr} {s t : State} (h : exec i s = .next t) :
    ∃ r, t.responses = s.responses ++ [r] ∧ t.pending = s.pending := by
  cases i <;> cases h <;> refine issue_response _ _ s ?_
  case push b => unfold performPush; dsimp only; split <;> exact ⟨_, rfl, rfl⟩
  all_goals exact ⟨_, rfl, rfl⟩

/-- A command word appends its one response, which is `responseTo`, and keeps the host actions (R54). -/
theorem executeWord_response {w : CmdWord} {s t : State} (h : executeWord w s = .next t) :
    t.responses = s.responses ++ [responseTo w s] ∧ t.pending = s.pending := by
  have hone : ∃ r, t.responses = s.responses ++ [r] ∧ t.pending = s.pending := by
    have h' := h
    unfold executeWord at h'
    split at h'
    · exact exec_response h'
    · cases h'; exact ⟨_, reject_responses _ w s, reject_pending _ w s⟩
  obtain ⟨r, hr, hp⟩ := hone
  exact ⟨by simp [responseTo, h, hr], hp⟩

/-- What one clock cycle can do: reset, wait for `cmd_ready`, wait for a word, accept one, work on it,
hold its response, or deliver it (R51, R114). The counts are the free values of log entries 5 and 13. -/
theorem portCycle_cases {p q : Port} {pins : HostPins} (h : portCycle p pins = .next q) :
    (pins.rstN = false ∧ ∃ n, q = p.after (hardwareReset p.engine) (settle n) none) ∨
      (pins.rstN = true ∧ breaksHold p.offered pins = false ∧
        ((∃ n, p.channel = .settling n ∧ q = p.after p.engine (settle n) (offerOf pins)) ∨
          (p.channel = .ready ∧ pins.cmdValid = false ∧ ∃ n, q = p.after p.engine (settle n) none) ∨
          (p.channel = .ready ∧ pins.cmdValid = true ∧
            ∃ n, q = p.after p.engine (answerAfter pins.cmd n) none) ∨
          (∃ n w, p.channel = .working n w ∧ q = p.after p.engine (answerAfter w n) (offerOf pins)) ∨
          (∃ w, p.channel = .presenting w ∧ pins.rspReady = false ∧
            q = p.after p.engine (.presenting w) (offerOf pins)) ∨
          (∃ w t n, p.channel = .presenting w ∧ pins.rspReady = true ∧ executeWord w p.engine = .next t ∧
            q = p.after t (settle n) (offerOf pins)))) := by
  unfold portCycle at h
  split at h
  next hr => exact .inl ⟨by simpa using hr, _, by simpa using h.symm⟩
  next hr =>
    split at h
    next => cases h
    next hb =>
      refine .inr ⟨by simpa using hr, by simpa using hb, ?_⟩
      split at h
      next n hc => exact .inl ⟨n, hc, by simpa using h.symm⟩
      next hc =>
        cases hv : pins.cmdValid with
        | false => exact .inr (.inl ⟨hc, rfl, _, by simpa [hv] using h.symm⟩)
        | true => exact .inr (.inr (.inl ⟨hc, rfl, _, by simpa [hv] using h.symm⟩))
      next n w hc => exact .inr (.inr (.inr (.inl ⟨n, w, hc, by simpa using h.symm⟩)))
      next w hc =>
        cases hv : pins.rspReady with
        | false => exact .inr (.inr (.inr (.inr (.inl ⟨w, hc, rfl, by simpa [hv] using h.symm⟩))))
        | true =>
          obtain ⟨t, ht⟩ := executeWord_next w p.engine
          rw [hv, if_pos rfl, ht] at h
          exact .inr (.inr (.inr (.inr (.inr ⟨w, t, _, hc, rfl, ht, by simpa [deliver] using h.symm⟩))))

end Sys2Proof.Machine
end

