-- ==== Sys2Proof/Laws/Sha256.lean ====
section
/-! SUPPORT. The small lemmas of the checksum function's parts: lengths, single bytes, and the fold over
blocks. -/

namespace Sys2Proof.Machine

@[simp] theorem bytesBE32_length (w : Word) : (bytesBE32 w).length = 4 := rfl

@[simp] theorem bytesBE64_length (v : BitVec 64) : (bytesBE64 v).length = 8 := rfl

/-- A digest has 32 bytes. -/
@[simp] theorem digestBytes_length (h : HashState) : (digestBytes h).length = 32 := by
  simp [digestBytes, List.length_flatMap]

@[simp] theorem blockWords_length (b : Block) : (blockWords b).length = 16 := by
  simp [blockWords]

/-- A byte of a block cut from a byte string. -/
@[simp] theorem blockAt_getElem (bytes : List Byte) (i j : Nat) (hj : j < 64) :
    (blockAt bytes i)[j] = bytes.getD (64 * i + j) 0 := by
  simp [blockAt]

@[simp] theorem absorbBlocks_zero (h : HashState) (bytes : List Byte) :
    absorbBlocks h bytes 0 = h := rfl

/-- One block more is one compression more. -/
theorem absorbBlocks_succ (h : HashState) (bytes : List Byte) (k : Nat) :
    absorbBlocks h bytes (k + 1) = compress (absorbBlocks h bytes k) (blockAt bytes k) := by
  simp [absorbBlocks, List.range_succ]

/-- The state after `k` blocks depends on the bytes of those blocks alone. -/
theorem absorbBlocks_congr (h : HashState) (bytes bytes' : List Byte) (k : Nat)
    (hb : ∀ j, j < 64 * k → bytes.getD j 0 = bytes'.getD j 0) :
    absorbBlocks h bytes k = absorbBlocks h bytes' k := by
  induction k with
  | zero => simp only [absorbBlocks_zero]
  | succ k ih =>
    have hblock : blockAt bytes k = blockAt bytes' k := by
      refine Vector.ext fun j hj => ?_
      simp only [blockAt_getElem _ _ _ hj, hb (64 * k + j) (by omega)]
    simp only [absorbBlocks_succ, ih fun j hj => hb j (by omega), hblock]

/-- Blocks absorbed in two parts. -/
theorem absorbBlocks_add (h : HashState) (bytes : List Byte) (j k : Nat) :
    absorbBlocks h bytes (j + k) = absorbBlocks (absorbBlocks h bytes j) (bytes.drop (64 * j)) k := by
  induction k with
  | zero => simp only [Nat.add_zero, absorbBlocks_zero]
  | succ k ih =>
    have hblock : blockAt (bytes.drop (64 * j)) k = blockAt bytes (j + k) := by
      refine Vector.ext fun i hi => ?_
      simp only [blockAt_getElem _ _ _ hi, List.getD_eq_getElem?_getD, List.getElem?_drop]
      rw [show 64 * j + (64 * k + i) = 64 * (j + k) + i by omega]
    simp only [← Nat.add_assoc, absorbBlocks_succ, ih, hblock]

/-- The bytes MemRead gives, inside the buffer. -/
theorem memRead_length (buf : Block) (addr n : Nat) (h : addr + n ≤ 64) :
    (memRead buf addr n).length = n := by
  simp [memRead]; omega

end Sys2Proof.Machine
end

