-- ==== Sys2Proof/Tests/Slice0.lean ====
section
/-! SUPPORT. Small tests, each from a worked example of the spec (95_test_vectors unless a rule is named),
and a witness for the hypotheses of every statement that has some. -/

namespace Sys2Proof.Tests

open Sys2Proof.Machine

/-! ## Helpers -/

/-- The engine in ABSORB with a given CNT and LEN, all else as INIT leaves it from reset. -/
def absorbing (cnt : BitVec 6) (len : BitVec 61) : State :=
  { State.reset with phase := .absorb, h := iv, cnt := cnt, len := len }

/-- The engine in ABSORB with "abc" pushed. -/
def absorbingAbc : State :=
  { absorbing 3 3 with buf := memWrite State.reset.buf 0 [0x61, 0x62, 0x63] }

/-- The engine in DONE with a tag. -/
def finished : State := { State.reset with phase := .done, h := iv, tag := 0xC2428B4F, len := 3 }

/-- FAULT with STATUS 0x20610033, the start state of vectors 25 to 31. -/
def faulted : State := { State.reset with phase := .fault, cause := .seq, fcmd := 0x2061 }

/-- A state with one command word pending. -/
def offering (w : CmdWord) (s : State) : State := { s with pending := [.command w] }

/-- The next state of an outcome. -/
def nextOf (o : Host.Outcome State Fault Refusal) : State :=
  match o with
  | .next s => s
  | .fault _ => State.reset
  | .refused _ => State.reset

/-- PHASE, CAUSE, FCMD and the responses after a step. -/
def seen (s : State) : Phase × Cause × CmdWord × List Response :=
  ((nextOf (step s)).phase, (nextOf (step s)).cause, (nextOf (step s)).fcmd,
    (nextOf (step s)).responses)

/-! ## Well-formedness: each check refuses an ill-formed term (R58, R62, R63) -/

theorem test_reserved_opcode_refused : (Fields.mk 0x6 0 0).opDefined = false := by decide
theorem test_nonzero_rsvd_refused : (Fields.mk 0x2 1 0x61).rsvdZero = false := by decide
theorem test_nonzero_imm_refused : (Fields.mk 0x1 0 1).immAllowed = false := by decide
theorem test_fields_refused :
    (Fields.mk 0x6 0 0).wellFormed = false ∧ (Fields.mk 0x2 1 0x61).wellFormed = false ∧
      (Fields.mk 0x1 0 1).wellFormed = false ∧ (Fields.mk 0x2 0 0x61).wellFormed = true := by decide
theorem test_push_operand_refused : (AsmLine.push 256).wellFormed = false := by decide
theorem test_word_operand_refused : (AsmLine.word 65536).wellFormed = false := by decide
theorem test_pushn_operand_refused : (AsmLine.pushn 256 1).wellFormed = false := by decide
theorem test_quote_in_text_refused : (AsmLine.pushs [0x61, 0x22]).wellFormed = false := by decide
theorem test_unprintable_text_refused : (AsmLine.checksumText [0x0A]).wellFormed = false := by decide
theorem test_odd_digits_refused : (AsmLine.pushx [1, 2, 3]).wellFormed = false := by decide
theorem test_wide_digit_refused : (AsmLine.checksumHex [1, 16]).wellFormed = false := by decide

/-! ## Decoding: words written out bit by bit (section 2.5) -/

theorem test_decode_nop : decode 0b0000000000000000 = .command .nop := by decide
theorem test_decode_init : decode 0b0001000000000000 = .command .init := by decide
theorem test_decode_push : decode 0b0010000010000000 = .command (.push 0x80) := by decide
theorem test_decode_push_all_ones : decode 0b0010000011111111 = .command (.push 0xFF) := by decide
theorem test_decode_final : decode 0b0011000000000000 = .command .final := by decide
theorem test_decode_rdtag : decode 0b0100000000000000 = .command .rdtag := by decide
theorem test_decode_rdstat : decode 0b0101000000000000 = .command .rdstat := by decide
theorem test_decode_rst : decode 0b1111000000000000 = .command .rst := by decide
theorem test_decode_illfld :
    [0x0001, 0x0100, 0x1001, 0x2161, 0x2F00, 0x3080, 0x4001, 0x5001, 0xF0FF, 0xF100, 0xFFFF].all
      (fun w => decode w == .illegal .illfld) = true := by decide
theorem test_decode_illop :
    [0x6000, 0x7FFF, 0xA5A5, 0xE001, 0xEFFF].all (fun w => decode w == .illegal .illop) = true := by
  decide
theorem test_table_word : decodeTableWord 16 0x2061 = some (.push 0x61) := by decide
theorem test_fetch_word :
    (nextOf (step (State.reset.withFetchWord 16 0x1000))).phase = .absorb := by decide

/-! ## Words and the compression function (sections 2.1, 2.2) -/

theorem test_rotr : rotr 0x12345678 8 = 0x78123456 ∧ rotr 0x00000001 1 = 0x80000000 := by decide
theorem test_shr : shr 0x12345678 10 = 0x00048D15 ∧ shr 0x80000000 3 = 0x10000000 := by decide
theorem test_ch_maj :
    ch 0x510E527F 0x9B05688C 0x1F83D9AB = 0x1F85C98C ∧
      maj 0x6A09E667 0xBB67AE85 0x3C6EF372 = 0x3A6FE667 := by decide
theorem test_bsig : bsig0 0x6A09E667 = 0xCE20B47E ∧ bsig1 0x510E527F = 0x3587272B := by decide
theorem test_ssig : ssig0 0x61626380 = 0x940E90EF ∧ ssig1 0x00000018 = 0x000F0000 := by decide
theorem test_byte_orders :
    bswap32 0x4F8B42C2 = 0xC2428B4F ∧ be32 0x61 0x62 0x63 0x80 = 0x61626380 ∧
      le32 0x5D 0xF6 0xE0 0xE2 = 0xE2E0F65D ∧ bytesBE64 24 = [0, 0, 0, 0, 0, 0, 0, 0x18] := by decide
theorem test_round_zero :
    roundStep (workingOf iv) 0x428A2F98 0x61626380 =
      ⟨0x5D6AEBCD, 0x6A09E667, 0xBB67AE85, 0x3C6EF372, 0xFA2A4622, 0x510E527F, 0x9B05688C,
        0x1F83D9AB⟩ := by decide +kernel
theorem test_schedule_abc :
    (schedule (blockAt (pad [0x61, 0x62, 0x63]) 0))[63]? = some 0x12B1EDEB := by decide +kernel
theorem test_pad_lengths :
    [0, 3, 55, 56, 64].map (fun n => (pad (List.replicate n 0)).length) = [64, 64, 64, 128, 128] := by
  decide +kernel
theorem test_compress_abc :
    compress iv (blockAt (pad [0x61, 0x62, 0x63]) 0) =
      #v[0xBA7816BF, 0x8F01CFEA, 0x414140DE, 0x5DAE2223, 0xB00361A3, 0x96177A9C, 0xB410FF61,
        0xF20015AD] := by decide +kernel

/-! ## The commands (section 2.6) -/

/-- Vector 1. -/
theorem test_nop : seen (offering 0x0000 State.reset) = (.idle, .none, 0, [⟨false, 0⟩]) := by decide
/-- Vector 28. -/
theorem test_nop_in_fault :
    seen (offering 0x0000 faulted) = (.fault, .seq, 0x2061, [⟨false, 0⟩]) := by decide
/-- Vector 3. -/
theorem test_init :
    (nextOf (exec .init State.reset)).h[4] = 0x510E527F ∧
      (nextOf (exec .init State.reset)).phase = .absorb := by decide
/-- Vector 23. -/
theorem test_init_discards_tag : (nextOf (exec .init finished)).tag = 0 := by decide
/-- Vector 11. -/
theorem test_push :
    ((nextOf (exec (.push 0x61) (absorbing 0 0))).buf[0],
      (nextOf (exec (.push 0x61) (absorbing 0 0))).cnt,
      (nextOf (exec (.push 0x61) (absorbing 0 0))).len) = (0x61, 1, 1) := by decide
/-- Vector 16: the 64th byte compresses. -/
theorem test_push_compresses :
    (nextOf (exec (.push 0x61)
      { absorbing 63 63 with buf := Vector.replicate 64 0x61 })).h.toList.take 2 =
        [0xDF5BB81C, 0xE81E0626] := by decide +kernel
/-- Vector 18: the tag of "abc", both passes. -/
theorem test_final : (nextOf (exec .final absorbingAbc)).tag = 0xC2428B4F := by decide +kernel
/-- Vector 21. -/
theorem test_final_in_done :
    seen (offering 0x3000 finished) = (.fault, .seq, 0x3000, [⟨true, 0⟩]) := by decide
/-- Vector 20. -/
theorem test_rdtag :
    seen (offering 0x4000 finished) = (.done, .none, 0, [⟨false, 0xC2428B4F⟩]) := by decide
/-- Vector 14. -/
theorem test_rdtag_in_absorb :
    seen (offering 0x4000 (absorbing 1 1)) = (.fault, .seq, 0x4000, [⟨true, 0⟩]) := by decide
/-- Vector 29. -/
theorem test_rdstat_in_fault :
    seen (offering 0x5000 faulted) = (.fault, .seq, 0x2061, [⟨false, 0x20610033⟩]) := by decide
/-- Vector 2. -/
theorem test_rdstat : seen (offering 0x5000 State.reset) = (.idle, .none, 0, [⟨false, 0⟩]) := by decide
/-- Vector 31. -/
theorem test_rst : seen (offering 0xF000 faulted) = (.idle, .none, 0, [⟨false, 0⟩]) := by decide
/-- Vector 27: not RST. -/
theorem test_rst_lookalike :
    seen (offering 0xF0FF faulted) = (.fault, .seq, 0x2061, [⟨true, 0⟩]) := by decide
/-- Vectors 5 and 8: SEQ, and ILLFLD before SEQ. -/
theorem test_fault_priority :
    seen (offering 0x2061 State.reset) = (.fault, .seq, 0x2061, [⟨true, 0⟩]) ∧
      seen (offering 0x2161 State.reset) = (.fault, .illfld, 0x2161, [⟨true, 0⟩]) := by decide
/-- Vectors 32 and 34: LENOVF in ABSORB, SEQ in DONE. -/
theorem test_length_limit :
    seen (offering 0x20AA (absorbing 63 0x1FFFFFFFFFFFFFFF)) = (.fault, .lenovf, 0x20AA, [⟨true, 0⟩]) ∧
      seen (offering 0x20AA { finished with len := 0x1FFFFFFFFFFFFFFF }) =
        (.fault, .seq, 0x20AA, [⟨true, 0⟩]) := by decide
/-- Vector 33: the last byte that fits. -/
theorem test_last_byte_fits :
    (nextOf (exec (.push 0xAA) (absorbing 62 0x1FFFFFFFFFFFFFFE))).len = 0x1FFFFFFFFFFFFFFF := by decide
/-- R64: a line of the listing of program P2. -/
theorem test_listing :
    listLine 10 0x4000 ⟨false, 0xC2428B4F⟩ = codes "10: 0x4000  RDTAG  ; -> ok 0xC2428B4F" := by
  decide +kernel
/-- Log entry 9: PUSHX with no operand. -/
theorem test_pushx_empty : assembleLine "PUSHX" = some [] := by decide +kernel
/-- R63: the hexadecimal form of CHECKSUM, either case of digit. -/
theorem test_checksum_hex :
    assembleLine "CHECKSUM 9F e0" = some [0x1000, 0x209F, 0x20E0, 0x3000, 0x4000] := by decide +kernel
/-- R63: spaces between pairs. -/
theorem test_pushx : assembleLine "PUSHX 61 62" = some [0x2061, 0x2062] := by decide +kernel

/-! ## Witnesses: the hypotheses of each statement can be met -/

theorem witness_EachCommandHasOneWord : decode 0x2061 = .command (.push 0x61) := by decide
theorem witness_StepRunsTheDecodedCommand :
    (offering 0x2061 State.reset).pending = .command 0x2061 :: [] ∧
      decode 0x2061 = .command (.push 0x61) ∧ (Instr.push 0x61).wellFormed = true := by decide
theorem witness_StepWaitsForTheHost : State.reset.pending = [] := by decide
theorem witness_EveryWordGetsItsOneResponse :
    (offering 0x4000 finished).pending = .command 0x4000 :: [] := by decide
theorem witness_PhaseFollows_command :
    (offering 0x1000 State.reset).pending = .command 0x1000 :: [] ∧
      ∃ t, step (offering 0x1000 State.reset) = .next t := ⟨rfl, _, rfl⟩
theorem witness_PhaseFollows_reset :
    ∃ t, step { finished with pending := [.hardwareReset] } = .next t := ⟨_, rfl⟩
theorem witness_FaultEntry :
    State.reset.phase ≠ .fault ∧
      rejectionCause 0x2061 State.reset = some .seq ∧ rejectionCause 0x6000 State.reset = some .illop ∧
      rejectionCause 0xE001 State.reset = some .illop ∧
      rejectionCause 0x2161 State.reset = some .illfld ∧
      rejectionCause 0x20AA (absorbing 63 0x1FFFFFFFFFFFFFFF) = some .lenovf ∧
      (offering 0x2061 State.reset).pending = .command 0x2061 :: [] := by decide
theorem witness_FaultPhaseKeeps :
    faulted.phase = .fault ∧ (offering 0x1000 faulted).pending = .command 0x1000 :: [] ∧
      (0x1000 : CmdWord) ≠ 0x0000 ∧ (0x1000 : CmdWord) ≠ 0x5000 ∧ (0x1000 : CmdWord) ≠ 0xF000 ∧
      (0xF000 : CmdWord) ∉ [0x1000, 0x6000, 0xF0FF] := by decide
theorem witness_OnlyResetLeavesFault :
    (offering 0xF000 faulted).phase = .fault ∧
      (nextOf (step (offering 0xF000 faulted))).phase ≠ .fault ∧
      (nextOf (step { faulted with pending := [.hardwareReset] })).phase ≠ .fault ∧
      ∃ t, step (offering 0xF000 faulted) = .next t := ⟨rfl, by decide, by decide, _, rfl⟩
theorem witness_WrongPhaseRaisesSeq :
    State.reset.phase ≠ .fault ∧ State.reset.cause ≠ .seq ∧ faulted.phase = .fault := by decide
theorem witness_PushAtTheLengthLimit :
    (absorbing 63 0x1FFFFFFFFFFFFFFF).phase = .absorb ∧
      (absorbing 63 0x1FFFFFFFFFFFFFFF).len.toNat = 2 ^ 61 - 1 := by decide
theorem witness_FaultRecordNamesItsWord :
    FaultWordSound faulted ∧ ∃ t, step (offering 0x1000 faulted) = .next t :=
  ⟨fun _ => .inr (.inr (.inl ⟨rfl, .inr (.inr ⟨0x61, by decide⟩)⟩)), _, rfl⟩
theorem witness_InitOpensAMessage : State.reset.phase ≠ .fault ∧ finished.phase ≠ .fault := by decide
theorem witness_PushStoresTheByte :
    (absorbing 62 0x1FFFFFFFFFFFFFFE).phase = .absorb ∧
      (absorbing 62 0x1FFFFFFFFFFFFFFE).len.toNat < 2 ^ 61 - 1 ∧
      (absorbing 62 0x1FFFFFFFFFFFFFFE).cnt ≠ 63 := by decide
theorem witness_PushOfTheLastByte :
    (absorbing 63 63).phase = .absorb ∧ (absorbing 63 63).len.toNat < 2 ^ 61 - 1 ∧
      (absorbing 63 63).cnt = 63 := by decide
theorem witness_FinalRunsBothPasses :
    (absorbing 55 55).phase = .absorb ∧ (absorbing 56 56).phase = .absorb := by decide
theorem witness_RdtagReadsTheTag : finished.phase = .done := by decide
theorem witness_PushFrame :
    (∃ t, exec (.push 0x61) (absorbing 0 0) = .next t ∧
        t.responses = (absorbing 0 0).responses ++ [⟨false, 0⟩]) ∧
      ∃ t, exec (.push 0x61) State.reset = .next t ∧
        t.responses = State.reset.responses ++ [⟨true, 0⟩] :=
  ⟨⟨_, rfl, by decide⟩, _, rfl, by decide⟩
theorem witness_NonStoringFrame :
    (∃ t, exec .init finished = .next t) ∧ (∃ t, exec .rdtag finished = .next t) ∧
      (∃ t, exec .rdstat faulted = .next t) ∧ ∃ t, exec .nop faulted = .next t :=
  ⟨⟨_, rfl⟩, ⟨_, rfl⟩, ⟨_, rfl⟩, _, rfl⟩
theorem witness_RepeatedCommands_read :
    finished.phase = .done ∧ (∃ t u, exec .rdtag finished = .next t ∧ exec .rdtag t = .next u) ∧
      ∃ t u, exec .rdstat faulted = .next t ∧ exec .rdstat t = .next u :=
  ⟨rfl, ⟨_, _, rfl, rfl⟩, _, _, rfl, rfl⟩
theorem witness_RepeatedCommands :
    (∃ t u, exec .init finished = .next t ∧ exec .init t = .next u) ∧
      (∃ t u, exec .rst faulted = .next t ∧ exec .rst t = .next u) ∧
      (∃ t, exec .final (absorbing 0 0) = .next t) ∧
      (absorbing 0 0).phase = .absorb ∧ (absorbing 0 0).len.toNat < 2 ^ 61 - 1 ∧
      ∃ t, exec (.push 0) (absorbing 0 0) = .next t :=
  ⟨⟨_, _, rfl, rfl⟩, ⟨_, _, rfl, rfl⟩, ⟨_, rfl⟩, by decide, by decide, _, rfl⟩
theorem witness_ResetZeroesEveryRegister :
    (∃ t, step { finished with pending := [.hardwareReset] } = .next t) ∧
      ∃ t, step (offering 0xF000 finished) = .next t := ⟨⟨_, rfl⟩, _, rfl⟩
theorem witness_EveryStepKeepsSound :
    Sound (offering 0x1000 State.reset) ∧ ∃ t, step (offering 0x1000 State.reset) = .next t := by
  refine ⟨.inl ⟨⟨by decide, by decide⟩, by decide, fun _ => rfl, ?_, ?_⟩, _, rfl⟩ <;>
    exact fun h => absurd h (by decide)
theorem witness_PushedBytesAreAbsorbed :
    finished.phase ≠ .fault ∧ ([0x61, 0x62] : List Byte).length ≤ 2 ^ 61 - 1 := by decide
theorem witness_TransactionAnswersTheChecksum :
    finished.phase ≠ .fault ∧ FaultRecordSound finished ∧ ([0x61] : List Byte).length ≤ 2 ^ 61 - 1 ∧
      [0x0000, 0x1000, 0x5000, 0x2061, 0x3000, 0x0000, 0x4000].filter notNopOrRdstat =
        [0x1000] ++ [0x61].map (fun b => encode (.push b)) ++ [0x3000] ++ List.replicate (0 + 1) 0x4000 :=
  ⟨by decide, ⟨by decide, by decide⟩, by decide, by decide⟩
theorem witness_MessagesAreIndependent :
    State.reset.phase ≠ .fault ∧ FaultRecordSound State.reset ∧ finished.phase ≠ .fault ∧
      FaultRecordSound finished := ⟨by decide, ⟨by decide, by decide⟩, by decide, ⟨by decide, by decide⟩⟩
theorem witness_WordFunctionsBitByBit : 0 < 31 ∧ 31 < 32 := by decide
theorem witness_ScheduleFollowsTheRecurrence : 16 ≤ 63 ∧ 63 < 64 := by decide
theorem witness_message_in_the_domain : ([0x61, 0x62, 0x63] : List Byte).length < 2 ^ 61 := by decide

/-- A port that can accept a word. -/
def readyPort : Port := { Port.reset 0 with channel := .ready }

theorem witness_ResetSilencesThePort : (HostPins.mk false true 0x1000 true).rstN = false := by decide
/-- A word offered while `cmd_ready` is 0 has to be held, and one that is dropped is refused. -/
theorem witness_PortRefusesOnlyBrokenHandshakes :
    (∃ q, portCycle { readyPort with channel := .working 0 0x1000 } ⟨true, true, 0x3000, true⟩ = .next q ∧
        q.offered = some 0x3000) ∧
      ∃ r, portCycle { readyPort with channel := .working 0 0x1000, offered := some 0x3000 }
        ⟨true, false, 0, true⟩ = .refused r := ⟨⟨_, rfl, rfl⟩, _, rfl⟩
theorem witness_OneCommandInProgress_ready :
    ∃ q, portCycle readyPort ⟨true, true, 0x1000, true⟩ = .next q := ⟨_, rfl⟩
theorem witness_OneCommandInProgress_idle :
    ∃ q, portCycle readyPort ⟨true, false, 0, true⟩ = .next q := ⟨_, rfl⟩
theorem witness_OneCommandInProgress_settling :
    (∃ q, portCycle { readyPort with channel := .settling 0 } ⟨true, true, 0x1000, true⟩ = .next q) ∧
      ∃ q, portCycle { readyPort with channel := .settling 1 } ⟨true, false, 0, true⟩ = .next q :=
  ⟨⟨_, rfl⟩, _, rfl⟩
theorem witness_OneCommandInProgress_working :
    ∃ q, portCycle { readyPort with channel := .working 0 0x1000 } ⟨true, false, 0, true⟩ = .next q :=
  ⟨_, rfl⟩
theorem witness_OneCommandInProgress_held :
    ∃ q, portCycle { readyPort with channel := .presenting 0x1000 } ⟨true, false, 0, false⟩ = .next q :=
  ⟨_, rfl⟩
theorem witness_OneCommandInProgress_delivered :
    ∃ q, portCycle { readyPort with channel := .presenting 0x1000 } ⟨true, false, 0, true⟩ = .next q :=
  ⟨_, rfl⟩
theorem witness_EveryAcceptedCommandFinishes :
    readyPort.channel = .ready ∧ readyPort.offered = none := by decide
theorem witness_PortRunIsACommandRun :
    ∃ q, portRun readyPort [⟨true, true, 0x1000, true⟩, ⟨false, true, 0x1000, true⟩] = .next q :=
  ⟨_, rfl⟩
theorem witness_InstancesComputeAlone : [State.reset, finished][1]? = some finished := by decide
theorem witness_PseudoInstructionsExpand :
    (AsmLine.checksumText [0x61, 0x20, 0x7E]).wellFormed = true ∧
      (AsmLine.pushs [0x20, 0x21, 0x23, 0x7E]).wellFormed = true ∧ (AsmLine.pushs []).wellFormed = true ∧
      (AsmLine.pushn 255 64).wellFormed = true ∧ (AsmLine.pushn 0 0).wellFormed = true ∧
      (AsmLine.pushx [6, 1, 15, 15]).wellFormed = true ∧ (AsmLine.pushx []).wellFormed = true ∧
      (AsmLine.checksumHex [0, 0, 15, 15]).wellFormed = true := by
  decide

end Sys2Proof.Tests
end

/-! PROOFS. The status word and reset (R24, R30) and the independence of messages (R31), over one layer of
rules about a step, a run of command words and the parts of BUF that FINAL reads. -/

namespace Sys2Proof.Machine

/-! ### A step and a run, by the host's next action -/

/-- A word that decodes to a command does what `exec` of that command does (R86). -/
theorem executeWord_of_command {w : CmdWord} {i : Instr} (hd : decode w = .command i) (s : State) :
    executeWord w s = exec i s := by
  simp only [executeWord, hd]

/-- An illegal word is rejected before any check of the phase (R86, R103). -/
theorem executeWord_of_illegal {w : CmdWord} {c : Cause} (hd : decode w = .illegal c) (s : State) :
    executeWord w s = .next (reject c w s) := by
  simp only [executeWord, hd]

/-- A step with a command word pending executes it with the word taken. -/
theorem step_of_command {s : State} {w : CmdWord} {rest : List HostAction}
    (hp : s.pending = .command w :: rest) : step s = executeWord w (withActions s rest) := by
  simp only [step, takeAction, hp, perform, withActions]

/-- A step with hardware reset pending resets the registers. -/
theorem step_of_hardwareReset {s : State} {rest : List HostAction}
    (hp : s.pending = .hardwareReset :: rest) :
    step s = .next (hardwareReset (withActions s rest)) := by
  simp only [step, takeAction, hp, perform, withActions]

/-- Naming the actions a state already has pending changes nothing. -/
theorem withActions_of_pending {s : State} {as : List HostAction} (h : s.pending = as) :
    withActions s as = s := by
  subst h; rfl

/-- A run over no action stops at once. -/
theorem runActions_nil (s : State) : runActions s [] = .next (withActions s []) := rfl

/-- A run that begins with a command word executes it and goes on from there. -/
theorem runActions_command {s t : State} {w : CmdWord} {as : List HostAction}
    (h : executeWord w (withActions s as) = .next t) :
    runActions s (.command w :: as) = runActions t as := by
  have hstep : step (withActions s (.command w :: as)) = .next t := (step_of_command rfl).trans h
  obtain ⟨-, (hpending : t.pending = as)⟩ := executeWord_response h
  rw [runActions, runActions, withActions_of_pending hpending]
  exact run_succ _ _ _ hstep

/-! ### The status word -/

/-- Bits above the lower part of a word are bits of its upper part. -/
theorem extractLsb'_append_above {v w start len : Nat} (x : BitVec v) (y : BitVec w) :
    (x ++ y).extractLsb' (w + start) len = x.extractLsb' start len := by
  rw [BitVec.extractLsb'_append_eq_of_le (Nat.le_add_right w start), Nat.add_sub_cancel_left]

/-- The five parts of STATUS (R24) read back by their bit positions: past the low
2, 4 and 8 bits the word is its parts above them. -/
theorem extract_fields_of_append (f : BitVec 16) (z : BitVec 8) (c : BitVec 4) (z' p : BitVec 2) :
    let w := f ++ z ++ c ++ z' ++ p
    w.extractLsb' 16 16 = f ∧ w.extractLsb' 8 8 = z ∧ w.extractLsb' 4 4 = c ∧
      w.extractLsb' 2 2 = z' ∧ w.extractLsb' 0 2 = p := by
  intro w
  have above2 (i n : Nat) : w.extractLsb' (2 + i) n = (f ++ z ++ c ++ z').extractLsb' i n :=
    extractLsb'_append_above _ _
  have above4 (i n : Nat) : w.extractLsb' (2 + (2 + i)) n = (f ++ z ++ c).extractLsb' i n :=
    (above2 _ n).trans (extractLsb'_append_above _ _)
  have above8 (i n : Nat) : w.extractLsb' (2 + (2 + (4 + i))) n = (f ++ z).extractLsb' i n :=
    (above4 _ n).trans (extractLsb'_append_above _ _)
  exact ⟨(above8 8 16).trans BitVec.extractLsb'_append_eq_left,
    (above8 0 8).trans BitVec.extractLsb'_append_eq_right,
    (above4 0 4).trans BitVec.extractLsb'_append_eq_right,
    (above2 0 2).trans BitVec.extractLsb'_append_eq_right, BitVec.extractLsb'_append_eq_right⟩

/-- Settles O27: R24 field by field, then the codes of R98 and R16. -/
theorem statusWordLayout : Obligations.StatusWordLayout := by
  intro s
  obtain ⟨hfcmd, hzero, hcause, hzero', hphase⟩ :=
    extract_fields_of_append s.fcmd 0 (causeCode s.cause) 0 s.phase.code
  refine ⟨hfcmd, hzero, hcause.trans ?_, hzero', hphase.trans ?_⟩
  · cases s.cause <;> rfl
  · cases s.phase <;> rfl

/-! ### Reset -/

/-- Every register after `resetRegisters` is that of the reset state (R30). -/
theorem sameRegisters_resetRegisters (s : State) : SameRegisters (resetRegisters s) State.reset :=
  ⟨rfl, rfl, rfl, rfl, rfl, rfl, rfl, rfl⟩

/-- RST is legal in every phase and resets the registers (R96). -/
theorem exec_rst (s : State) : exec .rst s = .next (respond (.ok 0) (resetRegisters s)) := by
  have h := issue_performs .rst (fun s => respond (.ok 0) (resetRegisters s)) s rfl rfl
  exact congrArg Host.Outcome.next h

/-- Settles O28: the reset state by evaluation, the two resets by their steps. -/
theorem resetZeroesEveryRegister : Obligations.ResetZeroesEveryRegister := by
  refine ⟨⟨rfl, by decide, by decide, rfl, rfl, rfl, rfl, rfl, by decide⟩, ?_⟩
  rintro s t rest (hp | hp) hstep
  · rw [step_of_hardwareReset hp] at hstep
    cases hstep
    exact sameRegisters_resetRegisters (withActions s rest)
  · have hd : decode 0xF000 = .command .rst := by decide
    rw [step_of_command hp, executeWord_of_command hd, exec_rst] at hstep
    cases hstep
    exact sameRegisters_resetRegisters (withActions s rest)

/-! ### What FINAL and PUSH read of BUF -/

/-- Two buffers hold the same first `n` bytes. -/
def AgreeBelow (n : Nat) (buf buf' : Block) : Prop :=
  ∀ (j : Nat) (_ : j < 64), j < n → buf[j] = buf'[j]

/-- Buffers that agree on all 64 bytes are equal. -/
theorem AgreeBelow.eq {buf buf' : Block} (h : AgreeBelow 64 buf buf') : buf = buf' :=
  Vector.ext fun j hj => h j hj hj

/-- Writing one string right above the bytes two buffers share makes them share it too. -/
theorem AgreeBelow.memWrite {n : Nat} {buf buf' : Block} (h : AgreeBelow n buf buf')
    (bs : List Byte) : AgreeBelow (n + bs.length) (memWrite buf n bs) (memWrite buf' n bs) := by
  intro j hj hn
  rw [memWrite_getElem, memWrite_getElem]
  split
  · rfl
  · exact h j hj (by omega)

/-- Closing the tail at `n` leaves no byte of BUF above `n` as it was (R90). -/
theorem AgreeBelow.closeTail_eq {n : Nat} {buf buf' : Block} (h : AgreeBelow n buf buf')
    (hn : n < 64) : closeTail buf n = closeTail buf' n := by
  have hall := (h.memWrite [0x80]).memWrite (List.replicate (63 - n) 0)
  have hlen : n + [(0x80 : Byte)].length + (List.replicate (63 - n) (0 : Byte)).length = 64 := by
    simp; omega
  rw [hlen] at hall
  exact hall.eq

/-- The first pass of FINAL reads only the first `n` bytes of BUF (R90). -/
theorem AgreeBelow.finishFirstPass_eq {n : Nat} {buf buf' : Block} (h : AgreeBelow n buf buf')
    (hn : n < 64) (hash : HashState) (len : Nat) :
    finishFirstPass hash buf n len = finishFirstPass hash buf' n len := by
  simp only [finishFirstPass, h.closeTail_eq hn]

/-! ### Two engines that later responses cannot tell apart -/

/-- Every register agrees but for the bytes of BUF at CNT and above, which are left from an earlier message
and which every command writes before it reads them. -/
structure Indistinguishable (s t : State) : Prop where
  phase : s.phase = t.phase
  h : s.h = t.h
  cnt : s.cnt = t.cnt
  len : s.len = t.len
  tag : s.tag = t.tag
  cause : s.cause = t.cause
  fcmd : s.fcmd = t.fcmd
  buf : AgreeBelow s.cnt.toNat s.buf t.buf

/-- Two engines went from `s` and `t` to `s'` and `t'` by one command: they gave the same response and cannot
be told apart by later ones. -/
structure AnswerAlike (s t s' t' : State) : Prop where
  indistinguishable : Indistinguishable s' t'
  response : ∃ r, s'.responses = s.responses ++ [r] ∧ t'.responses = t.responses ++ [r]

section Pair
variable {s t : State}

theorem Indistinguishable.withActions (hst : Indistinguishable s t) (as : List HostAction) :
    Indistinguishable (withActions s as) (withActions t as) where
  __ := hst

/-- STATUS is read from registers that agree. -/
theorem Indistinguishable.statusWord_eq (hst : Indistinguishable s t) :
    statusWord s = statusWord t := by
  simp only [statusWord, hst.fcmd, hst.cause, hst.phase]

/-- The checks of `execute` read only PHASE and LEN (R86). -/
theorem Indistinguishable.failedCheck_eq (hst : Indistinguishable s t) (i : Instr) :
    failedCheck i s = failedCheck i t := by
  have hlimit : atLengthLimit i s = atLengthLimit i t := by
    cases i <;> simp only [atLengthLimit, hst.len]
  simp only [failedCheck, hst.phase, hlimit]

/-- The same response from both writes no register. -/
theorem Indistinguishable.respond (hst : Indistinguishable s t) (r : Response) :
    AnswerAlike s t (respond r s) (respond r t) where
  indistinguishable := { hst with }
  response := ⟨r, rfl, rfl⟩

/-- A rejection looks the same from both, in FAULT and outside it. -/
theorem Indistinguishable.reject (hst : Indistinguishable s t) (c : Cause) (w : CmdWord) :
    AnswerAlike s t (reject c w s) (reject c w t) := by
  refine ⟨?_, .rejected, reject_responses c w s, reject_responses c w t⟩
  by_cases hp : s.phase = .fault
  · rw [reject_inside c w s hp, reject_inside c w t (hst.phase ▸ hp)]
    exact { hst with }
  · rw [reject_outside c w s hp, reject_outside c w t (hst.phase ▸ hp)]
    exact { hst with phase := rfl, cause := rfl, fcmd := rfl }

/-- A command issued is rejected from both or performed from both. -/
theorem Indistinguishable.issue (hst : Indistinguishable s t) (i : Instr) (f : State → State)
    (hf : AnswerAlike s t (f s) (f t)) : AnswerAlike s t (issue i f s) (issue i f t) := by
  unfold Machine.issue
  rw [← hst.failedCheck_eq i]
  split
  · exact hst.reject _ _
  · exact hf

/-- INIT writes every register but BUF, CAUSE and FCMD, and leaves no byte of BUF below CNT (R87). -/
theorem performInit_answerAlike (hcause : s.cause = t.cause) (hfcmd : s.fcmd = t.fcmd) :
    AnswerAlike s t (performInit s) (performInit t) where
  indistinguishable :=
    { phase := rfl, h := rfl, cnt := rfl, len := rfl, tag := rfl, cause := hcause, fcmd := hfcmd
      buf := fun j _ hj => absurd hj (Nat.not_lt_zero j) }
  response := ⟨.ok 0, rfl, rfl⟩

/-- PUSH stores one byte at CNT and, when that fills BUF, compresses it (R88). -/
theorem Indistinguishable.performPush (hst : Indistinguishable s t) (b : Byte) :
    AnswerAlike s t (performPush b s) (performPush b t) := by
  have hbuf : AgreeBelow (s.cnt.toNat + 1) (memWrite s.buf s.cnt.toNat [b])
      (memWrite t.buf t.cnt.toNat [b]) := hst.cnt ▸ hst.buf.memWrite [b]
  unfold Machine.performPush
  by_cases hfull : s.cnt = 63
  · have hblock : memWrite s.buf s.cnt.toNat [b] = memWrite t.buf t.cnt.toNat [b] := by
      rw [hfull] at hbuf ⊢
      exact hbuf.eq
    rw [if_pos hfull, if_pos (hst.cnt ▸ hfull), hblock]
    refine ⟨?_, .ok 0, rfl, rfl⟩
    exact { hst with
      h := congrArg (compress · _) hst.h, cnt := rfl, len := congrArg (· + 1) hst.len
      buf := fun _ _ _ => rfl }
  · have hnext : (s.cnt + 1).toNat = s.cnt.toNat + 1 := by
      have : s.cnt.toNat ≠ 63 := fun h => hfull (BitVec.eq_of_toNat_eq h)
      bv_omega
    rw [if_neg hfull, if_neg (hst.cnt ▸ hfull)]
    refine ⟨?_, .ok 0, rfl, rfl⟩
    exact { hst with
      cnt := congrArg (· + 1) hst.cnt, len := congrArg (· + 1) hst.len, buf := hnext ▸ hbuf }

/-- FINAL closes the tail at CNT and then writes BUF whole (R90). -/
theorem Indistinguishable.performFinal (hst : Indistinguishable s t) :
    AnswerAlike s t (performFinal s) (performFinal t) := by
  have hpass : finishFirstPass s.h s.buf s.cnt.toNat s.len.toNat =
      finishFirstPass t.h t.buf t.cnt.toNat t.len.toNat := by
    rw [hst.buf.finishFirstPass_eq s.cnt.isLt, hst.h, hst.cnt, hst.len]
  unfold Machine.performFinal
  rw [hpass]
  refine ⟨?_, .ok 0, rfl, rfl⟩
  exact { hst with phase := rfl, h := rfl, cnt := rfl, tag := rfl, buf := fun _ _ _ => rfl }

/-- Every command is answered alike (R86). -/
theorem Indistinguishable.exec (hst : Indistinguishable s t) (i : Instr) {s' t' : State}
    (hs : exec i s = .next s') (ht : exec i t = .next t') : AnswerAlike s t s' t' := by
  cases i <;> cases hs <;> cases ht <;> refine hst.issue _ _ ?_
  case nop => exact hst.respond _
  case init => exact performInit_answerAlike hst.cause hst.fcmd
  case push b => exact hst.performPush _
  case final => exact hst.performFinal
  case rdtag =>
    rw [hst.tag]
    exact hst.respond _
  case rdstat =>
    rw [hst.statusWord_eq]
    exact hst.respond _
  case rst =>
    exact ⟨⟨rfl, rfl, rfl, rfl, rfl, rfl, rfl, fun _ _ _ => rfl⟩, .ok 0, rfl, rfl⟩

/-- Every command word, well-formed or not, is answered alike. -/
theorem Indistinguishable.executeWord (hst : Indistinguishable s t) (w : CmdWord) :
    ∃ s' t', executeWord w s = .next s' ∧ executeWord w t = .next t' ∧ AnswerAlike s t s' t' := by
  obtain ⟨s', hs⟩ := executeWord_next w s
  obtain ⟨t', ht⟩ := executeWord_next w t
  refine ⟨s', t', hs, ht, ?_⟩
  cases hd : decode w with
  | command i =>
    rw [executeWord_of_command hd] at hs ht
    exact hst.exec i hs ht
  | illegal c =>
    rw [executeWord_of_illegal hd] at hs ht
    cases hs
    cases ht
    exact hst.reject c w

end Pair

/-- Indistinguishable states give the same responses to any list of command words. -/
theorem Indistinguishable.runActions {s t : State} (hst : Indistinguishable s t)
    (ws : List CmdWord) :
    ∃ s' t' rs, runActions s (issueWords ws) = .next s' ∧ runActions t (issueWords ws) = .next t' ∧
      s'.responses = s.responses ++ rs ∧ t'.responses = t.responses ++ rs := by
  induction ws generalizing s t with
  | nil => exact ⟨_, _, [], runActions_nil s, runActions_nil t, by simp, by simp⟩
  | cons w ws ih =>
    obtain ⟨s₁, t₁, hs₁, ht₁, hst₁, r, hr, hr'⟩ := (hst.withActions (issueWords ws)).executeWord w
    obtain ⟨s', t', rs, hs', ht', hrs, hrs'⟩ := ih hst₁
    refine ⟨s', t', r :: rs, (runActions_command hs₁).trans hs', (runActions_command ht₁).trans ht',
      ?_, ?_⟩
    · rw [hrs, hr, withActions_responses, List.append_assoc, List.singleton_append]
    · rw [hrs', hr', withActions_responses, List.append_assoc, List.singleton_append]

/-- Outside FAULT a sound fault record is empty (R29 (a)). -/
theorem faultRecord_empty {s : State} (hp : s.phase ≠ .fault) (hf : FaultRecordSound s) :
    s.cause = .none ∧ s.fcmd = 0 := by
  obtain ⟨hiff, hzero⟩ := hf
  have hcause : s.cause = .none := Decidable.not_not.mp fun hc => hp (hiff.mpr hc)
  exact ⟨hcause, hzero hcause⟩

/-- Outside FAULT the word of INIT opens a message (R87). -/
theorem executeWord_init {s : State} (hp : s.phase ≠ .fault) :
    executeWord (encode .init) s = .next (performInit s) := by
  have hd : decode (encode .init) = .command .init := by decide
  have hl : legalIn .init s.phase = true := by
    cases h : s.phase with
    | fault => exact absurd h hp
    | idle | absorb | done => rfl
  rw [executeWord_of_command hd]
  exact congrArg Host.Outcome.next (issue_performs .init performInit s hl rfl)

/-- Settles O35: INIT makes the two states indistinguishable, and every word after it keeps them so. -/
theorem messagesAreIndependent : Obligations.MessagesAreIndependent := by
  intro s s' ws hp hf hp' hf'
  obtain ⟨hcause, hfcmd⟩ := faultRecord_empty hp hf
  obtain ⟨hcause', hfcmd'⟩ := faultRecord_empty hp' hf'
  let as := issueWords ws
  obtain ⟨hopen, r, hr, hr'⟩ :=
    performInit_answerAlike (s := withActions s as) (t := withActions s' as)
      (hcause.trans hcause'.symm) (hfcmd.trans hfcmd'.symm)
  obtain ⟨t, t', rs, ht, ht', hrs, hrs'⟩ := hopen.runActions ws
  refine ⟨t, t', (runActions_command (executeWord_init (s := withActions s as) hp)).trans ht,
    (runActions_command (executeWord_init (s := withActions s' as) hp')).trans ht', ?_⟩
  rw [hrs, hrs', hr, hr', withActions_responses, withActions_responses]
  simp only [List.append_assoc, List.drop_left]

end Sys2Proof.Machine

/-! PROOFS. Which commands may be repeated (20_memory R45), over one equation per command in the phases it is
legal in. -/

namespace Sys2Proof.Machine

section Commands
variable (s : State)

/-- NOP is legal in every phase and only answers (R95). -/
theorem exec_nop : exec .nop s = .next (respond (.ok 0) s) :=
  congrArg Host.Outcome.next (issue_performs .nop _ s rfl rfl)

/-- RDSTAT is legal in every phase and only answers (R94). -/
theorem exec_rdstat : exec .rdstat s = .next (respond (.ok (statusWord s)) s) :=
  congrArg Host.Outcome.next
    (issue_performs .rdstat (fun s => respond (.ok (statusWord s)) s) s rfl rfl)

variable {s}

/-- RDTAG in DONE only answers (R93). -/
theorem exec_rdtag (hp : s.phase = .done) : exec .rdtag s = .next (respond (.ok s.tag) s) := by
  have hl : legalIn .rdtag s.phase = true := by rw [hp]; rfl
  exact congrArg Host.Outcome.next
    (issue_performs .rdtag (fun s => respond (.ok s.tag) s) s hl rfl)

/-- INIT outside FAULT opens a message (R87). -/
theorem exec_init (hp : s.phase ≠ .fault) : exec .init s = .next (performInit s) := by
  have hd : decode (encode .init) = .command .init := by decide
  rw [← executeWord_of_command hd, executeWord_init hp]

/-- FINAL in ABSORB closes the message (R90). -/
theorem exec_final (hp : s.phase = .absorb) : exec .final s = .next (performFinal s) := by
  have hl : legalIn .final s.phase = true := by rw [hp]; rfl
  exact congrArg Host.Outcome.next (issue_performs .final performFinal s hl rfl)

/-- FINAL outside ABSORB is rejected with SEQ (R86, R101). -/
theorem exec_final_rejected (hp : s.phase ≠ .absorb) :
    exec .final s = .next (reject .seq 0x3000 s) := by
  have hl : legalIn .final s.phase = false := beq_eq_false_iff_ne.mpr hp
  have hw : encode .final = 0x3000 := by decide
  rw [← hw]
  exact congrArg Host.Outcome.next (issue_rejects_phase .final performFinal s hl)

/-- PUSH in ABSORB below the length limit appends its byte (R88, R89). -/
theorem exec_push (b : Byte) (hp : s.phase = .absorb) (hlen : s.len.toNat < Config.maxLen) :
    exec (.push b) s = .next (performPush (messageByte b) s) := by
  have hl : legalIn (.push b) s.phase = true := by rw [hp]; rfl
  have ha : atLengthLimit (.push b) s = false := beq_eq_false_iff_ne.mpr hlen.ne
  exact congrArg Host.Outcome.next (issue_performs (.push b) _ s hl ha)

end Commands

/-- A response writes no register. -/
theorem sameRegisters_respond (r : Response) (s : State) : SameRegisters s (respond r s) :=
  ⟨rfl, rfl, rfl, rfl, rfl, rfl, rfl, rfl⟩

/-- INIT writes constants and leaves alone what it does not write, so a second one changes nothing. -/
theorem sameRegisters_performInit_twice (s : State) :
    SameRegisters (performInit s) (performInit (performInit s)) :=
  ⟨rfl, rfl, rfl, rfl, rfl, rfl, rfl, rfl⟩

/-- INIT ends in ABSORB (R87). -/
@[simp] theorem performInit_phase (s : State) : (performInit s).phase = .absorb := rfl

/-- FINAL ends in DONE (R90). -/
@[simp] theorem performFinal_phase (s : State) : (performFinal s).phase = .done := rfl

/-- PUSH counts its byte, whether or not that fills BUF (R88). -/
@[simp] theorem performPush_len (b : Byte) (s : State) : (performPush b s).len = s.len + 1 := by
  unfold performPush
  by_cases hfull : s.cnt = 63
  · rw [if_pos hfull]; rfl
  · rw [if_neg hfull]; rfl

/-- A read command executed twice gives one response twice: what it answers is read from registers,
which its own response does not write. -/
theorem exec_read_twice {i : Instr} {s : State}
    (hi : (i = .rdtag ∧ s.phase = .done) ∨ i = .rdstat ∨ i = .nop) :
    ∃ r, exec i s = .next (respond r s) ∧
      exec i (respond r s) = .next (respond r (respond r s)) := by
  obtain ⟨rfl, hp⟩ | rfl | rfl := hi
  · exact ⟨_, exec_rdtag hp, exec_rdtag (s := respond _ s) hp⟩
  · exact ⟨_, exec_rdstat s, exec_rdstat (respond _ s)⟩
  · exact ⟨_, exec_nop s, exec_nop _⟩

/-- Settles O26: each repeatable command by its equation, twice; the second FINAL by the phase the first
one leaves. -/
theorem repeatedCommands : Obligations.RepeatedCommands := by
  refine ⟨?read, ?init, ?rst, ?final, ?push⟩
  case read =>
    intro i s t u hi ht hu
    obtain ⟨r, hfirst, hsecond⟩ := exec_read_twice hi
    cases hfirst.symm.trans ht
    cases hsecond.symm.trans hu
    exact ⟨sameRegisters_respond r s, sameRegisters_respond r s, r, rfl, by simp⟩
  case init =>
    intro s t u hp ht hu
    cases (exec_init hp).symm.trans ht
    cases (exec_init (by simp)).symm.trans hu
    exact sameRegisters_performInit_twice s
  case rst =>
    intro s t u ht hu
    cases (exec_rst s).symm.trans ht
    cases (exec_rst _).symm.trans hu
    exact ⟨rfl, rfl, rfl, rfl, rfl, rfl, rfl, rfl⟩
  case final =>
    intro s t hp ht
    cases (exec_final hp).symm.trans ht
    rw [exec_final_rejected (by simp), reject_outside _ _ _ (by simp)]
    rfl
  case push =>
    intro b s t hp hlen ht
    cases (exec_push b hp hlen).symm.trans ht
    rw [performPush_len]
    bv_omega

end Sys2Proof.Machine

/-! PROOFS. The decoder by its three checks (30_encoding R58, R60) and the one response of every command
word (R54, R55), over one layer of rules about the fields of a word and the checks of `execute`. -/

namespace Sys2Proof.Machine

/-! ### The fields of a word and their checks -/

/-- A word is put together again from its fields (R52). -/
theorem toWord_ofWord (w : CmdWord) : (Fields.ofWord w).toWord = w := by
  unfold Fields.toWord Fields.ofWord
  rw [BitVec.extractLsb'_append_extractLsb'_eq_extractLsb' (by rfl),
    BitVec.extractLsb'_append_extractLsb'_eq_extractLsb' (by rfl), BitVec.extractLsb'_eq_self]

/-- R58 (1), by the value of the opcode. -/
theorem opDefined_iff (f : Fields) : f.opDefined = true ↔ f.op.toNat ≤ 0x5 ∨ f.op.toNat = 0xF := by
  unfold Fields.opDefined
  generalize f.op = op
  revert op
  decide

/-- R58 (2), on the field. -/
theorem rsvdZero_iff (f : Fields) : f.rsvdZero = true ↔ f.rsvd = 0 := beq_iff_eq

/-- R58 (3), by the value of the opcode. -/
theorem immAllowed_iff (f : Fields) : f.immAllowed = true ↔ f.op.toNat = 0x2 ∨ f.imm = 0 := by
  have hpush : f.op = 0x2 ↔ f.op.toNat = 0x2 := BitVec.toNat_inj.symm
  rw [Fields.immAllowed, Bool.or_eq_true, beq_iff_eq, beq_iff_eq, hpush]

/-- The command that a defined opcode selects, PUSH with the immediate as its byte (R56, R57). -/
def opcodeCommand (op : Nat) (imm : Byte) : Instr :=
  if op = 0x0 then .nop else if op = 0x1 then .init else if op = 0x2 then .push imm
  else if op = 0x3 then .final else if op = 0x4 then .rdtag else if op = 0x5 then .rdstat
  else .rst

/-! ### Decoding, check by check -/

/-- Fields that fail R58 (1) are illegal with ILLOP. -/
theorem decodeFields_of_not_opDefined {f : Fields} (h1 : ¬f.opDefined = true) :
    decodeFields f = .illegal .illop := by
  simp [decodeFields, h1]

/-- Fields that pass R58 (1) and fail (2) or (3) are illegal with ILLFLD. -/
theorem decodeFields_of_bad_field {f : Fields} (h1 : f.opDefined = true)
    (h23 : ¬(f.rsvdZero = true ∧ f.immAllowed = true)) : decodeFields f = .illegal .illfld := by
  by_cases h2 : f.rsvdZero = true
  · have h3 : ¬f.immAllowed = true := fun h => h23 ⟨h2, h⟩
    simp [decodeFields, h1, h2, h3]
  · simp [decodeFields, h1, h2]

/-- Fields that pass the three checks decode to the command of the opcode. -/
theorem decodeFields_of_checks {f : Fields} (h1 : f.opDefined = true) (h2 : f.rsvdZero = true)
    (h3 : f.immAllowed = true) : decodeFields f = .command (opcodeCommand f.op.toNat f.imm) := by
  simp [decodeFields, opcodeCommand, h1, h2, h3, apply_ite Decoded.command, ← BitVec.toNat_inj]

/-- Fields that pass the three checks are those of the command of the opcode. -/
theorem encodeFields_opcodeCommand {f : Fields} (h1 : f.opDefined = true) (h2 : f.rsvdZero = true)
    (h3 : f.immAllowed = true) : encodeFields (opcodeCommand f.op.toNat f.imm) = f := by
  obtain ⟨op, rsvd, imm⟩ := f
  obtain rfl : rsvd = 0 := (rsvdZero_iff _).mp h2
  have hop : op = 0x0 ∨ op = 0x1 ∨ op = 0x2 ∨ op = 0x3 ∨ op = 0x4 ∨ op = 0x5 ∨ op = 0xF := by
    simpa [Fields.opDefined, or_assoc] using h1
  rw [immAllowed_iff] at h3
  obtain rfl | rfl | rfl | rfl | rfl | rfl | rfl := hop
  case inr.inr.inl => rfl
  all_goals
    obtain rfl : imm = 0 := h3.resolve_left (by simp)
    rfl

/-- A word decodes to a command only if it is that command's word (R56, 92 D4). -/
theorem eq_encode_of_decode {w : CmdWord} {i : Instr} (hd : decode w = .command i) : w = encode i := by
  let f := Fields.ofWord w
  have hf : decodeFields f = .command i := hd
  by_cases h1 : f.opDefined = true
  · by_cases h23 : f.rsvdZero = true ∧ f.immAllowed = true
    · obtain ⟨h2, h3⟩ := h23
      rw [decodeFields_of_checks h1 h2 h3] at hf
      cases hf
      rw [encode, encodeFields_opcodeCommand h1 h2 h3, toWord_ofWord]
    · cases (decodeFields_of_bad_field h1 h23).symm.trans hf
  · cases (decodeFields_of_not_opDefined h1).symm.trans hf

/-- A word that decodes to `i` is the word of `j` exactly if `i` is `j`. -/
theorem eq_encode_iff {w : CmdWord} {i j : Instr} (hd : decode w = .command i)
    (hj : decode (encode j) = .command j) : w = encode j ↔ i = j := by
  constructor
  · rintro rfl
    exact Decoded.command.inj (hd.symm.trans hj)
  · rintro rfl
    exact eq_encode_of_decode hd

/-- Settles O3: the opcode check fails, a field check fails, or all three hold; each case says what the
word decodes to. -/
theorem decodeFollowsTheThreeChecks : Obligations.DecodeFollowsTheThreeChecks := by
  intro w op imm one two three
  have hone : (Fields.ofWord w).opDefined = true ↔ one := opDefined_iff _
  have htwo : (Fields.ofWord w).rsvdZero = true ↔ two := rsvdZero_iff _
  have hthree : (Fields.ofWord w).immAllowed = true ↔ three := immAllowed_iff _
  by_cases h1 : one
  · by_cases h23 : two ∧ three
    · obtain ⟨h2, h3⟩ := h23
      have hd : decode w = .command (opcodeCommand op imm) :=
        decodeFields_of_checks (hone.mpr h1) (htwo.mpr h2) (hthree.mpr h3)
      simp [hd, h1, h2, h3, opcodeCommand]
    · have hd : decode w = .illegal .illfld :=
        decodeFields_of_bad_field (hone.mpr h1) (by rwa [htwo, hthree])
      simp [hd, h1, h23]
  · have hd : decode w = .illegal .illop := decodeFields_of_not_opDefined (mt hone.mp h1)
    simp [hd, h1]

/-! ### The response of a command word -/

/-- The response to a word is the one its execution appends. -/
theorem responseTo_of_responses {w : CmdWord} {s t : State} {r : Response}
    (h : executeWord w s = .next t) (hr : t.responses = s.responses ++ [r]) : responseTo w s = r := by
  obtain ⟨hone, -⟩ := executeWord_response h
  simpa [hr] using hone.symm

/-- A command that fails a check is rejected with that check's cause and its own word (R86). -/
theorem exec_of_failedCheck {i : Instr} {s : State} {c : Cause} (hc : failedCheck i s = some c) :
    exec i s = .next (reject c (encode i) s) := by
  have hissue (f : State → State) : issue i f s = reject c (encode i) s := by
    simp only [issue, hc]
  cases i <;> exact congrArg Host.Outcome.next (hissue _)

/-- A word that fails a check of R103 is rejected with that check's cause. -/
theorem executeWord_of_rejectionCause {w : CmdWord} {s : State} {c : Cause}
    (hc : rejectionCause w s = some c) : executeWord w s = .next (reject c w s) := by
  rw [rejectionCause_eq] at hc
  cases hd : decode w with
  | illegal c' =>
    rw [hd] at hc
    cases hc
    exact executeWord_of_illegal hd s
  | command i =>
    rw [hd] at hc
    rw [executeWord_of_command hd, exec_of_failedCheck hc, eq_encode_of_decode hd]

/-- A word that passes the checks of R103 is a command that passes those of `execute`. -/
theorem command_of_no_rejectionCause {w : CmdWord} {s : State} (hc : rejectionCause w s = none) :
    ∃ i, decode w = .command i ∧ failedCheck i s = none := by
  rw [rejectionCause_eq] at hc
  cases hd : decode w with
  | illegal c =>
    rw [hd] at hc
    cases hc
  | command i =>
    rw [hd] at hc
    exact ⟨i, rfl, hc⟩

/-- What an executed command reads out (R54). -/
def answerData (s : State) : Instr → Word
  | .rdtag => s.tag
  | .rdstat => statusWord s
  | _ => 0

/-- The data of an executed command, by its word (R56). -/
theorem answerData_of_decode {w : CmdWord} {i : Instr} (hd : decode w = .command i) (s : State) :
    answerData s i = if w = 0x4000 then s.tag else if w = 0x5000 then statusWord s else 0 := by
  have hrdtag : w = 0x4000 ↔ i = .rdtag := eq_encode_iff (j := .rdtag) hd (by decide)
  have hrdstat : w = 0x5000 ↔ i = .rdstat := eq_encode_iff (j := .rdstat) hd (by decide)
  simp only [hrdtag, hrdstat]
  cases i <;> rfl

/-- PUSH answers with no data, whether or not its byte fills BUF (R88). -/
@[simp] theorem performPush_responses (b : Byte) (s : State) :
    (performPush b s).responses = s.responses ++ [.ok 0] := by
  unfold performPush
  by_cases hfull : s.cnt = 63
  · rw [if_pos hfull]; rfl
  · rw [if_neg hfull]; rfl

/-- A command that passes the checks of `execute` answers `err` = 0 and the data of R54. -/
theorem exec_responses_of_passed {i : Instr} {s t : State} (hc : failedCheck i s = none)
    (h : exec i s = .next t) : t.responses = s.responses ++ [.ok (answerData s i)] := by
  have hissue (f : State → State) : issue i f s = f s := by simp only [issue, hc]
  cases i <;> cases h <;> rw [hissue]
  case push b => exact performPush_responses _ s
  all_goals rfl

/-- A rejected word gets the rejected response (R55). -/
theorem responseTo_of_rejectionCause {w : CmdWord} {s : State} {c : Cause}
    (hc : rejectionCause w s = some c) : responseTo w s = .rejected :=
  responseTo_of_responses (executeWord_of_rejectionCause hc) (reject_responses c w s)

/-- An executed word gets `err` = 0 and TAG, STATUS or 0 (R54). -/
theorem responseTo_of_no_rejectionCause {w : CmdWord} {s : State} (hc : rejectionCause w s = none) :
    responseTo w s =
      .ok (if w = 0x4000 then s.tag else if w = 0x5000 then statusWord s else 0) := by
  obtain ⟨i, hd, hi⟩ := command_of_no_rejectionCause hc
  obtain ⟨t, ht⟩ := exec_next i s
  rw [← answerData_of_decode hd]
  exact responseTo_of_responses ((executeWord_of_command hd s).trans ht)
    (exec_responses_of_passed hi ht)

/-- Settles O7: the word's one response is `responseTo`, which is rejected or executed by the checks of
R103. -/
theorem everyWordGetsItsOneResponse : Obligations.EveryWordGetsItsOneResponse := by
  intro s w rest hp
  let taken := withActions s rest
  obtain ⟨t, ht⟩ := executeWord_next w taken
  obtain ⟨hresponses, hpending⟩ := executeWord_response ht
  refine ⟨t, responseTo w taken, (step_of_command hp).trans ht, hpending, hresponses, ?_⟩
  have hsame : rejectionCause w s = rejectionCause w taken := rfl
  rw [hsame]
  cases hc : rejectionCause w taken with
  | some c =>
    rw [responseTo_of_rejectionCause hc]
    simp [Response.rejected]
  | none =>
    rw [responseTo_of_no_rejectionCause hc]
    exact ⟨by simp [Response.ok], by simp [Response.ok], fun _ => rfl⟩

end Sys2Proof.Machine

/-! PROOFS. The checksum function by itself (R67 to R85): its constants, the message schedule, the
padding, a pass in its incremental form, the one block of the second pass, and the tag. -/

namespace Sys2Proof.Machine

/-! ### The constants -/

/-- The first sixty-four primes. -/
def firstPrimes : List Nat :=
  [2, 3, 5, 7, 11, 13, 17, 19, 23, 29, 31, 37, 41, 43, 47, 53] ++
  [59, 61, 67, 71, 73, 79, 83, 89, 97, 101, 103, 107, 109, 113, 127, 131] ++
  [137, 139, 149, 151, 157, 163, 167, 173, 179, 181, 191, 193, 197, 199, 211, 223] ++
  [227, 229, 233, 239, 241, 251, 257, 263, 269, 271, 277, 281, 283, 293, 307, 311]

theorem primes_below_312 : ((List.range 312).filter fun n => decide n.Prime) = firstPrimes := by
  simp only [Nat.prime_def_le_sqrt]
  decide +kernel

theorem primes_below_20 : ((List.range 20).filter fun n => decide n.Prime) = firstPrimes.take 8 := by
  decide

/-- Settles O37: the square roots of the first eight primes, one by one. -/
theorem initialWordsAreSquareRoots : Obligations.InitialWordsAreSquareRoots := by
  have hroots : ∀ i : Fin 8, iv[i].toNat = Nat.sqrt (firstPrimes[i.val]! * 2 ^ 64) % 2 ^ 32 := by
    decide +kernel
  have hprimes : ∀ i : Fin 8, (firstPrimes.take 8)[i.val]? = some firstPrimes[i.val]! := by decide
  intro i
  exact ⟨firstPrimes[i.val]!, primes_below_20 ▸ hprimes i, hroots i⟩

/-- The candidate for floor(cbrt(p) * 2^32) when `k` is its fraction: the whole part is that of cbrt(p). -/
def cubeRootWith (p : Nat) (k : Word) : Nat := Nat.nthRoot 3 p * 2 ^ 32 + k.toNat

/-- The fraction of the candidate is the word it was made with. -/
theorem cubeRootWith_mod (p : Nat) (k : Word) : cubeRootWith p k % 2 ^ 32 = k.toNat := by
  unfold cubeRootWith
  omega

/-- The round constants are the fractions of the cube roots of the first sixty-four primes (R71). -/
theorem cube_bounds_of_roundConstants :
    ∀ pk ∈ firstPrimes.zip roundConstants,
      cubeRootWith pk.1 pk.2 ^ 3 ≤ pk.1 * 2 ^ 96 ∧ pk.1 * 2 ^ 96 < (cubeRootWith pk.1 pk.2 + 1) ^ 3 := by
  decide +kernel

@[simp] theorem firstPrimes_length : firstPrimes.length = 64 := rfl

@[simp] theorem roundConstants_length : roundConstants.length = 64 := rfl

/-- Settles O38: the cube root of a prime is its whole part and the round constant. -/
theorem roundConstantsAreCubeRoots : Obligations.RoundConstantsAreCubeRoots := by
  refine ⟨roundConstants_length, fun t => ?_⟩
  have hp : firstPrimes[t.val]? = some (firstPrimes[t.val]'(by simp)) := List.getElem?_eq_getElem _
  have hk : roundConstants[t.val]? = some (roundConstants[t.val]'(by simp)) := List.getElem?_eq_getElem _
  obtain ⟨hle, hlt⟩ := cube_bounds_of_roundConstants _
    (List.mem_of_getElem? (List.getElem?_zip_eq_some (z := (_, _)).mpr ⟨hp, hk⟩))
  refine ⟨_, _, _, ?_, hle, hlt, hk, (cubeRootWith_mod _ _).symm⟩
  rw [primes_below_312, hp]

/-! ### The message schedule (R74) -/

/-- The words of the schedule up to W[15 + n]. -/
def scheduleUpTo (b : Block) (n : Nat) : List Word :=
  (List.range' 16 n).foldl (fun ws t => ws ++ [scheduleWord ws t]) (blockWords b)

theorem schedule_eq (b : Block) : schedule b = scheduleUpTo b 48 := rfl

theorem scheduleUpTo_zero (b : Block) : scheduleUpTo b 0 = blockWords b := rfl

/-- Each step appends one word, made from the words before it. -/
theorem scheduleUpTo_succ (b : Block) (n : Nat) :
    scheduleUpTo b (n + 1) = scheduleUpTo b n ++ [scheduleWord (scheduleUpTo b n) (16 + n)] := by
  simp [scheduleUpTo, List.range'_concat]

@[simp] theorem scheduleUpTo_length (b : Block) (n : Nat) : (scheduleUpTo b n).length = 16 + n := by
  induction n with
  | zero => simp [scheduleUpTo_zero]
  | succ n ih => simp [scheduleUpTo_succ, ih]; omega

/-- Later steps keep the words already there. -/
theorem scheduleUpTo_getElem?_add (b : Block) {n i : Nat} (hi : i < 16 + n) (k : Nat) :
    (scheduleUpTo b (n + k))[i]? = (scheduleUpTo b n)[i]? := by
  induction k with
  | zero => rfl
  | succ k ih =>
    rw [← Nat.add_assoc, scheduleUpTo_succ, List.getElem?_append_left (by simp; omega), ih]

/-- A word of the schedule stands in it from its own step on. -/
theorem schedule_getElem?_eq (b : Block) {n i : Nat} (hi : i < 16 + n) (hn : n ≤ 48) :
    (schedule b)[i]? = (scheduleUpTo b n)[i]? := by
  rw [schedule_eq, ← Nat.add_sub_cancel' hn, scheduleUpTo_getElem?_add b hi]

theorem blockWords_getElem? (b : Block) (j : Nat) (hj : j < 16) :
    (blockWords b)[j]? = some (be32 b[4 * j] b[4 * j + 1] b[4 * j + 2] b[4 * j + 3]) := by
  rw [blockWords, List.getElem?_ofFn, dif_pos hj]

/-- Settles O39: a word of the schedule is read where the fold over `t` appends it. -/
theorem scheduleFollowsTheRecurrence : Obligations.ScheduleFollowsTheRecurrence := by
  intro b
  refine ⟨by rw [schedule_eq, scheduleUpTo_length], fun t ht => ?_, fun t ht16 ht64 => ?_⟩
  · rw [schedule_getElem?_eq b (n := 0) ht (by omega), scheduleUpTo_zero, blockWords_getElem? b t ht]
  · obtain ⟨n, rfl⟩ := Nat.exists_eq_add_of_le ht16
    have hbefore (i : Nat) (hi : i < 16 + n) :
        (schedule b)[i]? = some ((scheduleUpTo b n).getD i 0) := by
      rw [schedule_getElem?_eq b hi (by omega), List.getD_eq_getElem?_getD,
        List.getElem?_eq_getElem (by simpa using hi), Option.getD_some]
    refine ⟨_, _, _, _, hbefore _ (by omega), hbefore _ (by omega), hbefore _ (by omega),
      hbefore _ (by omega), ?_⟩
    rw [schedule_getElem?_eq b (n := n + 1) (by omega) (by omega), scheduleUpTo_succ,
      List.getElem?_append_right (by simp)]
    simp [scheduleWord]

/-! ### Padding (R72) -/

/-- The zeros of the padding are fewer than a block and fill the last block up to the length bytes. -/
theorem pad_zeros (n : Nat) :
    ((55 - (n : Int)) % 64).toNat < 64 ∧
      n + 1 + ((55 - (n : Int)) % 64).toNat + 8 = 64 * blockCount n := by
  unfold blockCount
  omega

/-- A byte put below the part of a number that stands above it. -/
theorem mul_shiftRight_add_byte (n k : Nat) : 256 * (n >>> (k + 8)) + (n >>> k) % 2 ^ 8 = n >>> k := by
  rw [Nat.shiftRight_add, Nat.shiftRight_eq_div_pow (n >>> k) 8]
  exact Nat.div_add_mod _ _

/-- The eight length bytes read big-endian give the word they are cut from (R10). -/
theorem bytesBE64_value (v : BitVec 64) :
    (bytesBE64 v).foldl (fun n b => 256 * n + b.toNat) 0 = v.toNat := by
  have habove : v.toNat >>> 64 = 0 := Nat.shiftRight_eq_zero _ _ v.isLt
  have htop : 256 * 0 + (v.toNat >>> 56) % 2 ^ 8 = v.toNat >>> 56 :=
    habove ▸ mul_shiftRight_add_byte v.toNat 56
  simp only [bytesBE64, List.foldl_cons, List.foldl_nil, BitVec.extractLsb'_toNat]
  rw [htop, mul_shiftRight_add_byte _ 48, mul_shiftRight_add_byte _ 40, mul_shiftRight_add_byte _ 32,
    mul_shiftRight_add_byte _ 24, mul_shiftRight_add_byte _ 16, mul_shiftRight_add_byte _ 8,
    mul_shiftRight_add_byte _ 0, Nat.shiftRight_zero]

/-- The padded message is NB(n) whole blocks. -/
@[simp] theorem pad_length (m : List Byte) : (pad m).length = 64 * blockCount m.length := by
  obtain ⟨-, hlength⟩ := pad_zeros m.length
  simp [pad]
  omega

/-- Settles O40: the zeros are those of `pad_zeros` and the last eight bytes those of `bytesBE64`. -/
theorem paddingMakesWholeBlocks : Obligations.PaddingMakesWholeBlocks := by
  intro m hm
  obtain ⟨hz, hlength⟩ := pad_zeros m.length
  refine ⟨⟨_, _, hz, by omega, bytesBE64_length _, ?_, rfl⟩, pad_length m⟩
  rw [bytesBE64_value, BitVec.toNat_ofNat, Nat.mod_eq_of_lt (by omega)]

/-! ### A pass in its incremental form (R84) -/

/-- NB(n) is the whole blocks and the one or two blocks of the padded tail. -/
theorem blockCount_eq (n : Nat) : blockCount n = n / 64 + (if n % 64 ≤ 55 then 1 else 2) := by
  unfold blockCount
  split <;> omega

/-- The zeros of a short tail fill its block. -/
theorem pad_zeros_of_short {n : Nat} (h : n % 64 ≤ 55) :
    ((55 - (n : Int)) % 64).toNat = 55 - n % 64 := by
  omega

/-- The zeros of a long tail fill its block and the next one up to the length bytes. -/
theorem pad_zeros_of_long {n : Nat} (h : ¬n % 64 ≤ 55) :
    ((55 - (n : Int)) % 64).toNat = 63 - n % 64 + 56 := by
  omega

/-- The bytes of a message after its whole blocks. -/
def tailOf (m : List Byte) : List Byte := m.drop (64 * (m.length / 64))

@[simp] theorem tailOf_length (m : List Byte) : (tailOf m).length = m.length % 64 := by
  rw [tailOf, List.length_drop]
  omega

/-- `Fin(T, n)` is the tail with the padding of the whole message. -/
theorem paddedTail_tailOf (m : List Byte) :
    paddedTail (tailOf m) m.length =
      tailOf m ++ [0x80] ++ List.replicate ((55 - (m.length : Int)) % 64).toNat 0 ++
        bytesBE64 (BitVec.ofNat 64 (8 * m.length)) := by
  unfold paddedTail
  rw [tailOf_length]
  by_cases hshort : m.length % 64 ≤ 55
  · rw [if_pos hshort, pad_zeros_of_short hshort]
  · rw [if_neg hshort, pad_zeros_of_long hshort, List.replicate_add]
    simp only [List.append_assoc]

/-- The padded message is the whole blocks and the padded tail. -/
theorem pad_eq_take_append_paddedTail (m : List Byte) :
    pad m = m.take (64 * (m.length / 64)) ++ paddedTail (tailOf m) m.length := by
  rw [paddedTail_tailOf, pad]
  simp only [tailOf, ← List.append_assoc, List.take_append_drop]

/-- The padded tail is one block or two. -/
theorem paddedTail_tailOf_length (m : List Byte) :
    (paddedTail (tailOf m) m.length).length = 64 * (if m.length % 64 ≤ 55 then 1 else 2) := by
  have hpad := congrArg List.length (pad_eq_take_append_paddedTail m)
  rw [pad_length, blockCount_eq, List.length_append, List.length_take] at hpad
  omega

/-- A pass is the state after the whole blocks, compressed with the blocks of the padded tail. -/
theorem sha256Words_eq_absorbBlocks_tail (m : List Byte) :
    sha256Words m =
      absorbBlocks (absorbBlocks iv m (m.length / 64)) (paddedTail (tailOf m) m.length)
        (if m.length % 64 ≤ 55 then 1 else 2) := by
  have htake : (m.take (64 * (m.length / 64))).length = 64 * (m.length / 64) := by
    rw [List.length_take]; omega
  have hwhole : absorbBlocks iv (pad m) (m.length / 64) = absorbBlocks iv m (m.length / 64) := by
    refine absorbBlocks_congr _ _ _ _ fun j hj => ?_
    simp [pad, List.getD_eq_getElem?_getD, List.getElem?_append_left (show j < m.length by omega)]
  have hrest : (pad m).drop (64 * (m.length / 64)) = paddedTail (tailOf m) m.length := by
    rw [pad_eq_take_append_paddedTail, List.drop_left' htake]
  rw [sha256Words, blockCount_eq, absorbBlocks_add, hwhole, hrest]

/-- Settles O41, with the tail of the statement as `tailOf`. -/
theorem passIsIncremental : Obligations.PassIsIncremental := by
  intro m _ q tail
  have hlength : (paddedTail tail m.length).length = _ := paddedTail_tailOf_length m
  refine ⟨pad_eq_take_append_paddedTail m, ?_, sha256Words_eq_absorbBlocks_tail m⟩
  rw [hlength]
  split <;> rfl

/-! ### Words and their bytes (R10, R36, R38) -/

/-- A word read back from its bytes. -/
theorem be32_bytesBE32 (w : Word) :
    be32 ((bytesBE32 w).getD 0 0) ((bytesBE32 w).getD 1 0) ((bytesBE32 w).getD 2 0)
      ((bytesBE32 w).getD 3 0) = w := by
  show w.extractLsb' 24 8 ++ w.extractLsb' 16 8 ++ w.extractLsb' 8 8 ++ w.extractLsb' 0 8 = w
  rw [BitVec.extractLsb'_append_extractLsb'_eq_extractLsb' (start₂ := 24) (start₁ := 16) rfl,
    BitVec.extractLsb'_append_extractLsb'_eq_extractLsb' (start₂ := 16) (start₁ := 8) rfl,
    BitVec.extractLsb'_append_extractLsb'_eq_extractLsb' (start₂ := 8) (start₁ := 0) rfl,
    BitVec.extractLsb'_eq_self]

/-- The `k`-th byte of word `j` in the bytes of a list of words. -/
theorem flatMap_bytesBE32_getD (ws : List Word) (j k : Nat) (hk : k < 4) :
    (ws.flatMap bytesBE32).getD (4 * j + k) 0 = (bytesBE32 (ws.getD j 0)).getD k 0 := by
  induction ws generalizing j with
  | nil =>
    rw [List.flatMap_nil, List.getD_nil, List.getD_nil]
    interval_cases k <;> rfl
  | cons w ws ih =>
    rw [List.flatMap_cons]
    cases j with
    | zero => rw [Nat.mul_zero, Nat.zero_add, List.getD_append _ _ _ _ hk, List.getD_cons_zero]
    | succ j =>
      rw [List.getD_append_right _ _ _ _ (by simp; omega), List.getD_cons_succ, ← ih, bytesBE32_length,
        show 4 * (j + 1) + k - 4 = 4 * j + k by omega]

/-- A block cut from the bytes of sixteen words holds those words. -/
theorem blockWords_flatMap_bytesBE32 (ws : List Word) (hws : ws.length = 16) :
    blockWords (blockAt (ws.flatMap bytesBE32) 0) = ws := by
  refine List.ext_getElem (by simp [hws]) fun j hj hj' => ?_
  have hbyte := flatMap_bytesBE32_getD ws j
  have hfirst : (ws.flatMap bytesBE32).getD (4 * j) 0 = _ := hbyte 0 (by omega)
  have hword : ws.getD j 0 = ws[j] := List.getD_eq_getElem _ _ hj'
  simp only [blockWords, List.getElem_ofFn, blockAt_getElem, Nat.mul_zero, Nat.zero_add]
  rw [hfirst, hbyte 1 (by omega), hbyte 2 (by omega), hbyte 3 (by omega), be32_bytesBE32, hword]

/-! ### The second pass and the tag (R78, R81) -/

/-- The padding of a digest is the same for every message. -/
theorem pad_digest (h : HashState) :
    pad (digestBytes h) =
      digestBytes h ++ [0x80] ++ List.replicate 23 0 ++ [0, 0, 0, 0, 0, 0, 1, 0] := by
  rw [pad, digestBytes_length]
  rfl

/-- The padded digest as the bytes of sixteen words. -/
theorem pad_digest_eq_flatMap (h : HashState) :
    pad (digestBytes h) =
      (h.toList ++ [0x80000000, 0, 0, 0, 0, 0, 0, 0x00000100]).flatMap bytesBE32 := by
  rw [pad_digest, List.flatMap_append, digestBytes]
  simp only [List.append_assoc]
  rfl

/-- The words of the padded digest: the state words, then those of the padding. -/
theorem blockWords_pad_digest (h : HashState) :
    blockWords (blockAt (pad (digestBytes h)) 0) =
      h.toList ++ [0x80000000, 0, 0, 0, 0, 0, 0, 0x00000100] := by
  rw [pad_digest_eq_flatMap, blockWords_flatMap_bytesBE32 _ (by simp)]

/-- A digest is padded to one block, so its pass is one compression. -/
theorem sha256Words_digest (h : HashState) :
    sha256Words (digestBytes h) = compress iv (blockAt (pad (digestBytes h)) 0) := by
  rw [sha256Words, digestBytes_length]
  rfl

/-- Settles O42: all three parts hold of the bytes of any eight state words. -/
theorem secondPassIsOneBlock : Obligations.SecondPassIsOneBlock := by
  intro m _ d1
  exact ⟨pad_digest _, blockWords_pad_digest _, congrArg digestBytes (sha256Words_digest _)⟩

/-- The first four bytes of a digest are those of its first word. -/
theorem digestBytes_getD (h : HashState) (k : Nat) (hk : k < 4) :
    (digestBytes h).getD k 0 = (bytesBE32 h[0]).getD k 0 := by
  have hbyte := flatMap_bytesBE32_getD h.toList 0 k hk
  rw [Nat.mul_zero, Nat.zero_add] at hbyte
  rw [digestBytes, hbyte]
  congr 2
  simp

/-- Settles O43: little-endian from the big-endian bytes of a word is the word byte-swapped. -/
theorem tagIsTheSwappedFirstWord : Obligations.TagIsTheSwappedFirstWord := by
  intro m
  have hbyte := digestBytes_getD (sha256Words (sha256 m))
  rw [tag32, dsha256, sha256, hbyte 0 (by omega), hbyte 1 (by omega), hbyte 2 (by omega),
    hbyte 3 (by omega)]
  rfl

/-- Settles O46, by running both messages through both passes. -/
theorem distinctMessagesShareATag : Obligations.DistinctMessagesShareATag := by
  refine ⟨by decide, ?_, ?_⟩
  · decide +kernel
  · decide +kernel

end Sys2Proof.Machine

/-! PROOFS. A transaction answers the tag of its message (41_message_commands R92): what MemWrite leaves to
read, the two passes of FINAL over BUF (R90), the bytes PUSH absorbs (R88), and runs of command words with
NOP and RDSTAT among them. -/

namespace Sys2Proof.Machine

/-! ### The first bytes of BUF -/

/-- Reading all 64 bytes gives BUF as a list. -/
theorem memRead_whole (buf : Block) : memRead buf 0 64 = buf.toList := by
  simp [memRead]

/-- The first `n` bytes are the first of any `k` bytes from 0. -/
theorem memRead_take (buf : Block) {n k : Nat} (h : n ≤ k) :
    memRead buf 0 n = (memRead buf 0 k).take n := by
  simp [memRead, List.take_take, h]

/-- A string written right above the first `a` bytes is read after them. -/
theorem memRead_memWrite (buf : Block) (a : Nat) (bs : List Byte) {n : Nat} (hn : a + bs.length = n)
    (h64 : n ≤ 64) : memRead (memWrite buf a bs) 0 n = memRead buf 0 a ++ bs := by
  induction bs generalizing buf a with
  | nil =>
    obtain rfl : a = n := hn
    simp [memWrite]
  | cons b bs ih =>
    rw [List.length_cons] at hn
    have hbyte : memRead (buf.setIfInBounds a b) 0 (a + 1) = memRead buf 0 a ++ [b] := by
      have ha : a < buf.toList.length := by simp; omega
      simp only [memRead, List.drop_zero, Vector.toList_setIfInBounds]
      rw [List.take_add_one, List.take_set_of_le le_rfl, List.getElem?_set_self ha, Option.toList_some]
    rw [memWrite, ih _ _ (by omega), hbyte, List.append_assoc, List.singleton_append]

/-- A buffer that holds bytes 64i to 64i + 63 of a byte string is its block `i` (R73). -/
theorem blockAt_eq_of_memRead {buf : Block} {bytes : List Byte} {i : Nat}
    (h : memRead buf 0 64 = (bytes.drop (64 * i)).take 64) : blockAt bytes i = buf := by
  refine Vector.ext fun j hj => ?_
  have hget : buf.toList[j]? = bytes[64 * i + j]? := by
    rw [← memRead_whole, h, List.getElem?_take_of_lt hj, List.getElem?_drop]
  rw [blockAt_getElem _ _ _ hj, List.getD_eq_getElem?_getD, ← hget, Vector.getElem?_toList,
    Vector.getElem?_eq_getElem hj, Option.getD_some]

/-! ### The two passes of FINAL (R90) -/

/-- The closed tail: the first `n` bytes of BUF, 0x80, and zeros to the end. -/
theorem memRead_closeTail (buf : Block) {n : Nat} (hn : n < 64) :
    memRead (closeTail buf n) 0 64 = memRead buf 0 n ++ [0x80] ++ List.replicate (63 - n) 0 := by
  rw [closeTail, memRead_memWrite _ _ _ (by simp; omega) le_rfl,
    memRead_memWrite _ _ _ (by rfl) (by omega)]

/-- The bytes of the closed tail below the length field, when the tail leaves room for it. -/
theorem memRead_closeTail_short (buf : Block) {n : Nat} (hn : n ≤ 55) :
    memRead (closeTail buf n) 0 56 = memRead buf 0 n ++ [0x80] ++ List.replicate (55 - n) 0 := by
  have hlength : (memRead buf 0 n ++ [0x80]).length = n + 1 := by
    rw [List.length_append, memRead_length _ _ _ (by omega)]; rfl
  rw [memRead_take _ (show 56 ≤ 64 by omega), memRead_closeTail buf (by omega), List.take_append,
    List.take_of_length_le (by omega), hlength, List.take_replicate]
  congr 2
  omega

/-- The first pass of FINAL compresses the one or two blocks of the padded tail `Fin(T, n)` (R84, R90). -/
theorem finishFirstPass_fst (h : HashState) (buf : Block) {n : Nat} (hn : n < 64) (len : Nat) :
    (finishFirstPass h buf n len).1 =
      absorbBlocks h (paddedTail (memRead buf 0 n) len) (if n ≤ 55 then 1 else 2) := by
  have hlength : (memRead buf 0 n).length = n := memRead_length _ _ _ (by omega)
  let field := bytesBE64 (BitVec.ofNat 64 (8 * len))
  by_cases hshort : n ≤ 55
  · have hblock : blockAt (paddedTail (memRead buf 0 n) len) 0 = memWrite (closeTail buf n) 56 field := by
      refine blockAt_eq_of_memRead ?_
      rw [memRead_memWrite _ _ _ (by rfl) le_rfl, memRead_closeTail_short buf hshort, paddedTail, hlength,
        if_pos hshort, Nat.mul_zero, List.drop_zero, List.take_of_length_le (by simp [hlength]; omega)]
    rw [if_pos hshort, absorbBlocks_succ, absorbBlocks_zero, hblock, finishFirstPass,
      if_neg (by omega)]
  · let cleared := memWrite (closeTail buf n) 0 (List.replicate 64 0)
    have hcleared : memRead cleared 0 56 = List.replicate 56 0 := by
      rw [memRead_take _ (show 56 ≤ 64 by omega), memRead_memWrite _ _ _ (by simp) le_rfl]
      rfl
    have hpadded : paddedTail (memRead buf 0 n) len =
        memRead (closeTail buf n) 0 64 ++ memRead (memWrite cleared 56 field) 0 64 := by
      rw [memRead_memWrite _ _ _ (by rfl) le_rfl, memRead_closeTail buf hn, hcleared, paddedTail, hlength,
        if_neg hshort]
      simp only [List.append_assoc, field]
    have hfirst : blockAt (paddedTail (memRead buf 0 n) len) 0 = closeTail buf n := by
      refine blockAt_eq_of_memRead ?_
      rw [hpadded, Nat.mul_zero, List.drop_zero, List.take_left' (memRead_length _ _ _ le_rfl)]
    have hsecond : blockAt (paddedTail (memRead buf 0 n) len) 1 = memWrite cleared 56 field := by
      refine blockAt_eq_of_memRead ?_
      rw [hpadded, List.drop_left' (memRead_length _ _ _ le_rfl),
        List.take_of_length_le (memRead_length _ _ _ le_rfl).le]
    rw [if_neg hshort, absorbBlocks_succ, absorbBlocks_succ, absorbBlocks_zero, hfirst, hsecond,
      finishFirstPass, if_pos (by omega)]

/-- What FINAL leaves in BUF: the digest of the first pass and its padding (R78, R90). -/
theorem secondPassBlock_toList (d1 : HashState) (buf : Block) :
    (secondPassBlock d1 buf).toList =
      digestBytes d1 ++ [0x80] ++ List.replicate 29 0 ++ [0x01, 0x00] := by
  rw [← memRead_whole, secondPassBlock, memRead_memWrite _ 63 _ (by rfl) le_rfl,
    memRead_memWrite _ 62 _ (by rfl) (by omega), memRead_memWrite _ 33 _ (by rfl) (by omega),
    memRead_memWrite _ 32 _ (by rfl) (by omega), memRead_memWrite _ 0 _ (by simp) (by omega)]
  simp [memRead]

/-- The block of the second pass is the padded digest of the first one (R78). -/
theorem blockAt_pad_digest (d1 : HashState) (buf : Block) :
    blockAt (pad (digestBytes d1)) 0 = secondPassBlock d1 buf := by
  refine blockAt_eq_of_memRead ?_
  rw [memRead_whole, secondPassBlock_toList, Nat.mul_zero, List.drop_zero,
    List.take_of_length_le (by simp [blockCount]), pad_digest]
  simp

/-- FINAL closes the message that is open: R29 (c) before it gives R91 after it. -/
theorem closed_performFinal {s : State} {m : List Byte} (hs : Absorbing s m) :
    Closed (performFinal s) m := by
  let rest := (finishFirstPass s.h s.buf s.cnt.toNat s.len.toNat).2
  have hfirst : (finishFirstPass s.h s.buf s.cnt.toNat s.len.toNat).1 = sha256Words m := by
    rw [finishFirstPass_fst _ _ s.cnt.isLt, hs.tail, hs.len, hs.hash, hs.cnt]
    exact (sha256Words_eq_absorbBlocks_tail m).symm
  have hbuf : (performFinal s).buf = secondPassBlock (sha256Words m) rest := by
    rw [← hfirst]; rfl
  have hhash : (performFinal s).h = sha256Words (sha256 m) := by
    rw [sha256, sha256Words_digest, blockAt_pad_digest _ rest, ← hbuf]; rfl
  have htag : (performFinal s).tag = bswap32 (performFinal s).h[0] := rfl
  exact
    { phase := rfl
      len := hs.len
      cnt := rfl
      hash := congrArg digestBytes hhash
      tag := by rw [htag, hhash, tagIsTheSwappedFirstWord]
      tagWord := htag
      block := by rw [hbuf, secondPassBlock_toList]; rfl }

/-! ### The bytes PUSH absorbs (R88) -/

/-- PUSH of a byte that fills BUF compresses it. -/
theorem performPush_of_full (b : Byte) {s : State} (hfull : s.cnt = 63) :
    performPush b s =
      respond (.ok 0)
        { s with buf := memWrite s.buf s.cnt.toNat [b], len := s.len + 1
                 h := compress s.h (memWrite s.buf s.cnt.toNat [b]), cnt := 0 } :=
  if_pos hfull

/-- PUSH of a byte that does not fill BUF counts it. -/
theorem performPush_of_not_full (b : Byte) {s : State} (hroom : s.cnt ≠ 63) :
    performPush b s =
      respond (.ok 0)
        { s with buf := memWrite s.buf s.cnt.toNat [b], len := s.len + 1, cnt := s.cnt + 1 } :=
  if_neg hroom

/-- Bytes pushed later change no whole block. -/
theorem absorbBlocks_append (h : HashState) (m bs : List Byte) {k : Nat} (hk : 64 * k ≤ m.length) :
    absorbBlocks h (m ++ bs) k = absorbBlocks h m k :=
  absorbBlocks_congr _ _ _ _ fun _ hj => List.getD_append _ _ _ _ (by omega)

/-- PUSH absorbs one byte more: R29 (c) of the message before it gives R29 (c) of the longer one. -/
theorem absorbing_performPush {s : State} {m : List Byte} (hs : Absorbing s m)
    (hm : m.length < Config.maxLen) (b : Byte) : Absorbing (performPush b s) (m ++ [b]) := by
  have hlength : (m ++ [b]).length = m.length + 1 := List.length_append
  have hcnt : s.cnt.toNat = m.length % 64 := hs.cnt
  have hlen : (s.len + 1).toNat = (m ++ [b]).length := by
    have := hs.len
    unfold Config.maxLen at hm
    bv_omega
  have hbytes : memRead (memWrite s.buf s.cnt.toNat [b]) 0 (s.cnt.toNat + 1) =
      (m ++ [b]).drop (64 * (m.length / 64)) := by
    rw [memRead_memWrite _ _ _ (by rfl) (by omega), hs.tail, List.drop_append_of_le_length (by omega)]
  by_cases hfull : s.cnt = 63
  · have h63 : s.cnt.toNat = 63 := congrArg BitVec.toNat hfull
    have hnext : (m ++ [b]).length / 64 = m.length / 64 + 1 := by omega
    have hblock : blockAt (m ++ [b]) (m.length / 64) = memWrite s.buf s.cnt.toNat [b] := by
      refine blockAt_eq_of_memRead ?_
      rw [← hbytes, h63, List.take_of_length_le (memRead_length _ _ _ le_rfl).le]
    rw [performPush_of_full b hfull]
    exact
      { phase := hs.phase
        len := hlen
        cnt := show 0 = _ by omega
        tag := hs.tag
        tail := (List.drop_of_length_le (by omega)).symm
        hash := by
          rw [hnext, absorbBlocks_succ, absorbBlocks_append _ _ _ (by omega), ← hs.hash, hblock]; rfl }
  · have hroom : s.cnt.toNat ≠ 63 := fun h => hfull (BitVec.eq_of_toNat_eq h)
    have hsame : (m ++ [b]).length / 64 = m.length / 64 := by omega
    have hcount : (s.cnt + 1).toNat = s.cnt.toNat + 1 := by bv_omega
    rw [performPush_of_not_full b hfull]
    exact
      { phase := hs.phase
        len := hlen
        cnt := show (s.cnt + 1).toNat = _ by omega
        tag := hs.tag
        tail := by rw [hsame, ← hbytes, ← hcount]; rfl
        hash := by rw [hsame, absorbBlocks_append _ _ _ (by omega)]; exact hs.hash }

/-- INIT opens the empty message (R29 (c), R87). -/
theorem absorbing_performInit (s : State) : Absorbing (performInit s) [] :=
  ⟨rfl, rfl, rfl, rfl, rfl, rfl⟩

/-! ### The host interface decides nothing (log entries 1 and 2) -/

/-- The engine with another list of actions to come and another response stream behind it. -/
def withHost (s : State) (as : List HostAction) (rs : List Response) : State :=
  { s with pending := as, responses := rs }

/-- States with the same registers differ in the host interface alone. -/
theorem eq_withHost_of_sameRegisters {s u : State} (h : SameRegisters s u) :
    u = withHost s u.pending u.responses := by
  obtain ⟨hphase, hh, hbuf, hcnt, hlen, htag, hcause, hfcmd⟩ := h
  rw [withHost, hphase, hh, hbuf, hcnt, hlen, htag, hcause, hfcmd]

/-- Another host interface changes no register. -/
theorem sameRegisters_withHost (s : State) (as as' : List HostAction) (rs rs' : List Response) :
    SameRegisters (withHost s as rs) (withHost s as' rs') :=
  ⟨rfl, rfl, rfl, rfl, rfl, rfl, rfl, rfl⟩

/-- From the registers of `s` the operation writes the same registers and gives the same response, whatever
the host interface holds. -/
def HostBlind (f : State → State) (s : State) : Prop :=
  ∃ r, ∀ as rs, f (withHost s as rs) = withHost (f s) as (rs ++ [r])

/-- Fault entry and a rejection in FAULT read PHASE alone (R104, R105). -/
theorem hostBlind_reject (c : Cause) (w : CmdWord) (s : State) : HostBlind (reject c w) s := by
  refine ⟨.rejected, fun as rs => ?_⟩
  by_cases hp : s.phase = .fault
  · rw [reject_inside c w s hp, reject_inside c w (withHost s as rs) hp]; rfl
  · rw [reject_outside c w s hp, reject_outside c w (withHost s as rs) hp]; rfl

/-- The checks of `execute` read PHASE and LEN alone (R86). -/
theorem failedCheck_withHost (i : Instr) (s : State) (as : List HostAction) (rs : List Response) :
    failedCheck i (withHost s as rs) = failedCheck i s := by
  cases i <;> rfl

/-- A command is rejected or performed, and neither looks at the host interface (R86). -/
theorem hostBlind_issue (i : Instr) {f : State → State} {s : State} (hf : HostBlind f s) :
    HostBlind (issue i f) s := by
  unfold HostBlind issue
  simp only [failedCheck_withHost]
  cases failedCheck i s with
  | none => exact hf
  | some c => exact hostBlind_reject c (encode i) s

/-- PUSH reads CNT to say whether its byte fills BUF (R88). -/
theorem hostBlind_performPush (b : Byte) (s : State) : HostBlind (performPush b) s := by
  refine ⟨.ok 0, fun as rs => ?_⟩
  by_cases hfull : s.cnt = 63
  · rw [performPush_of_full b hfull, performPush_of_full b (s := withHost s as rs) hfull]; rfl
  · rw [performPush_of_not_full b hfull, performPush_of_not_full b (s := withHost s as rs) hfull]; rfl

/-- What a command word does is one operation that does not look at the host interface. -/
theorem executeWord_eq_hostBlind (w : CmdWord) :
    ∃ f, (∀ s, executeWord w s = .next (f s)) ∧ ∀ s, HostBlind f s := by
  cases hd : decode w with
  | illegal c => exact ⟨reject c w, executeWord_of_illegal hd, hostBlind_reject c w⟩
  | command i =>
    cases i <;> refine ⟨_, executeWord_of_command hd, fun s => hostBlind_issue _ ?_⟩
    case command.push b => exact hostBlind_performPush _ s
    case command.rdtag => exact ⟨.ok s.tag, fun _ _ => rfl⟩
    case command.rdstat => exact ⟨.ok (statusWord s), fun _ _ => rfl⟩
    all_goals exact ⟨_, fun _ _ => rfl⟩

/-- A word from the same registers, but with another host interface: the same registers after it and the
same response. -/
theorem executeWord_withHost {w : CmdWord} {s t : State} (h : executeWord w s = .next t)
    (as : List HostAction) (rs : List Response) :
    executeWord w (withHost s as rs) = .next (withHost t as (rs ++ [responseTo w s])) := by
  obtain ⟨f, hf, hblind⟩ := executeWord_eq_hostBlind w
  obtain ⟨r, hr⟩ := hblind s
  have hresponse : responseTo w s = r :=
    responseTo_of_responses (hf s) (congrArg State.responses (hr s.pending s.responses))
  cases (hf s).symm.trans h
  rw [hf, hr, hresponse]

/-- Two engines with the same registers answer a word alike and have the same registers after it. -/
theorem executeWord_of_sameRegisters {s u s' u' : State} {w : CmdWord} (h : SameRegisters s u)
    (hs : executeWord w s = .next s') (hu : executeWord w u = .next u') :
    SameRegisters s' u' ∧ responseTo w u = responseTo w s := by
  have hu' := executeWord_withHost hs u.pending u.responses
  rw [← eq_withHost_of_sameRegisters h] at hu'
  refine ⟨?_, responseTo_of_responses hu' rfl⟩
  cases hu.symm.trans hu'
  exact sameRegisters_withHost s' s'.pending _ s'.responses _

/-- A run takes its first word whatever stands in `pending` before it. -/
theorem runActions_word {s t : State} {w : CmdWord} (h : executeWord w s = .next t)
    (as : List HostAction) : runActions s (.command w :: as) = runActions t as := by
  obtain ⟨hresponses, -⟩ := executeWord_response h
  rw [runActions_command (executeWord_withHost h as s.responses), ← hresponses]
  rfl

/-! ### NOP and RDSTAT among other words (R92) -/

/-- The responses to the words that are neither NOP nor RDSTAT. -/
def keptResponses (ws : List CmdWord) (rs : List Response) : List Response :=
  ((ws.zip rs).filter fun p => notNopOrRdstat p.1).map (·.2)

/-- A NOP or an RDSTAT writes no register and answers. -/
theorem executeWord_inserted {w : CmdWord} (hw : notNopOrRdstat w = false) (s : State) :
    ∃ r, executeWord w s = .next (respond r s) := by
  have hcases : w = 0x0000 ∨ w = 0x5000 := by
    simpa [notNopOrRdstat, or_iff_not_imp_left] using hw
  obtain rfl | rfl := hcases
  · exact ⟨_, (executeWord_of_command (by decide) s).trans (exec_nop s)⟩
  · exact ⟨_, (executeWord_of_command (by decide) s).trans (exec_rdstat s)⟩

/-- A list of words and the same list without its NOPs and RDSTATs, from the same registers: the same
responses to the other words and the same registers at the end. -/
theorem runActions_without_inserted {s u : State} (h : SameRegisters s u) (ws : List CmdWord) :
    ∃ t v rs, runActions s (issueWords ws) = .next t ∧
      runActions u (issueWords (ws.filter notNopOrRdstat)) = .next v ∧
      SameRegisters t v ∧ t.pending = [] ∧
      t.responses = s.responses ++ rs ∧ v.responses = u.responses ++ keptResponses ws rs := by
  induction ws generalizing s u with
  | nil => exact ⟨_, _, [], runActions_nil s, runActions_nil u, h, rfl, by simp, by simp [keptResponses]⟩
  | cons w ws ih =>
    by_cases hw : notNopOrRdstat w = true
    · obtain ⟨s', hs'⟩ := executeWord_next w s
      obtain ⟨u', hu'⟩ := executeWord_next w u
      obtain ⟨hresponses, -⟩ := executeWord_response hs'
      obtain ⟨hresponses', -⟩ := executeWord_response hu'
      obtain ⟨h', hsame⟩ := executeWord_of_sameRegisters h hs' hu'
      obtain ⟨t, v, rs, ht, hv, htv, hpending, hrs, hkept⟩ := ih h'
      refine ⟨t, v, responseTo w s :: rs, (runActions_word hs' _).trans ht, ?_, htv, hpending, ?_, ?_⟩
      · rw [List.filter_cons_of_pos hw]
        exact (runActions_word hu' _).trans hv
      · simp [hrs, hresponses]
      · simp [hkept, hresponses', hsame, keptResponses, hw]
    · rw [Bool.not_eq_true] at hw
      obtain ⟨r, hr⟩ := executeWord_inserted hw s
      obtain ⟨t, v, rs, ht, hv, htv, hpending, hrs, hkept⟩ := ih (s := respond r s) (u := u) h
      refine ⟨t, v, r :: rs, (runActions_word hr _).trans ht, ?_, htv, hpending, ?_, ?_⟩
      · rwa [List.filter_cons_of_neg (by simp [hw])]
      · simp [hrs]
      · simp [hkept, keptResponses, hw]

/-! ### The words of a transaction, one after another -/

/-- The fields of a word put together are the fields it was made from (R52). -/
theorem ofWord_toWord (f : Fields) : Fields.ofWord f.toWord = f := by
  obtain ⟨op, rsvd, imm⟩ := f
  have hrsvd : (op ++ rsvd ++ imm).extractLsb' (8 + 0) 4 = rsvd :=
    (extractLsb'_append_above _ _).trans BitVec.extractLsb'_append_eq_right
  have hop : (op ++ rsvd ++ imm).extractLsb' (8 + 4) 4 = op :=
    (extractLsb'_append_above _ _).trans BitVec.extractLsb'_append_eq_left
  simp only [Fields.ofWord, Fields.toWord, Fields.mk.injEq]
  exact ⟨hop, hrsvd, BitVec.extractLsb'_append_eq_right⟩

/-- The word of a command decodes to that command (R56, R60). -/
theorem decode_encode (i : Instr) : decode (encode i) = .command i := by
  rw [decode, encode, ofWord_toWord]
  cases i <;> rfl

/-- From `s` the words `ws` lead to `t` with the responses `rs` and no fault record written. -/
structure Runs (s : State) (ws : List CmdWord) (t : State) (rs : List Response) : Prop where
  run : ∀ later, runActions s (issueWords (ws ++ later)) = runActions t (issueWords later)
  responses : t.responses = s.responses ++ rs
  cause : t.cause = s.cause
  fcmd : t.fcmd = s.fcmd

/-- No word, no response. -/
theorem Runs.refl (s : State) : Runs s [] s [] where
  run _ := rfl
  responses := (List.append_nil _).symm
  cause := rfl
  fcmd := rfl

/-- The words of one run and then those of another. -/
theorem Runs.append {s t u : State} {ws ws' : List CmdWord} {rs rs' : List Response}
    (h : Runs s ws t rs) (h' : Runs t ws' u rs') : Runs s (ws ++ ws') u (rs ++ rs') where
  run later := by rw [List.append_assoc, h.run, h'.run]
  responses := by rw [h'.responses, h.responses, List.append_assoc]
  cause := h'.cause.trans h.cause
  fcmd := h'.fcmd.trans h.fcmd

/-- A command that is performed runs as its one word. -/
theorem runs_of_exec {i : Instr} {s t : State} {r : Response} (h : exec i s = .next t)
    (hresponses : t.responses = s.responses ++ [r]) (hcause : t.cause = s.cause)
    (hfcmd : t.fcmd = s.fcmd) : Runs s [encode i] t [r] where
  run _ := runActions_word ((executeWord_of_command (decode_encode i) s).trans h) _
  responses := hresponses
  cause := hcause
  fcmd := hfcmd

/-- PUSH below the length limit answers with no data and writes no fault record (R88, R108). -/
theorem runs_push {s : State} {m : List Byte} (hs : Absorbing s m) (hm : m.length < Config.maxLen)
    (b : Byte) : Runs s [encode (.push b)] (performPush b s) [.ok 0] := by
  have hlen : s.len.toNat < Config.maxLen := hs.len ▸ hm
  have hbyte : messageByte b = b := BitVec.setWidth_eq b
  refine runs_of_exec (hbyte ▸ exec_push b hs.phase hlen) (performPush_responses b s) ?_ ?_
  all_goals
    by_cases hfull : s.cnt = 63
    · rw [performPush_of_full b hfull]; rfl
    · rw [performPush_of_not_full b hfull]; rfl

/-- The PUSHes of `bs` extend the open message by `bs` (R29 (c)). -/
theorem runs_pushes {s : State} {m : List Byte} (hs : Absorbing s m) (bs : List Byte)
    (hlen : m.length + bs.length ≤ Config.maxLen) :
    ∃ t, Runs s (bs.map fun b => encode (.push b)) t (List.replicate bs.length (.ok 0)) ∧
      Absorbing t (m ++ bs) := by
  induction bs generalizing s m with
  | nil => exact ⟨s, .refl s, by rwa [List.append_nil]⟩
  | cons b bs ih =>
    rw [List.length_cons] at hlen
    have hm : m.length < Config.maxLen := by omega
    obtain ⟨t, ht, hopen⟩ := ih (absorbing_performPush hs hm b) (by simp; omega)
    exact ⟨t, (runs_push hs hm b).append ht, by simpa using hopen⟩

/-- RDTAG after FINAL answers the tag each time and keeps the state of R91. -/
theorem runs_rdtags {s : State} {m : List Byte} (hs : Closed s m) (n : Nat) :
    ∃ t, Runs s (List.replicate n (encode .rdtag)) t (List.replicate n (.ok (tag32 m))) ∧
      Closed t m := by
  induction n generalizing s with
  | zero => exact ⟨s, .refl s, hs⟩
  | succ n ih =>
    have hfirst : Runs s [encode .rdtag] (respond (.ok (tag32 m)) s) [.ok (tag32 m)] :=
      runs_of_exec (hs.tag ▸ exec_rdtag hs.phase) rfl rfl rfl
    obtain ⟨t, ht, hclosed⟩ := ih (s := respond (.ok (tag32 m)) s) { hs with }
    exact ⟨t, hfirst.append ht, hclosed⟩

/-- The words of a transaction with `n` RDTAGs at its end. -/
def transactionWords (m : List Byte) (n : Nat) : List CmdWord :=
  [encode .init] ++ m.map (fun b => encode (.push b)) ++ [encode .final] ++
    List.replicate n (encode .rdtag)

/-- A transaction with nothing inserted (R92): INIT opens the message, the PUSHes absorb it, FINAL closes
it and RDTAG reads its tag. -/
theorem runs_transactionWords {s : State} (hp : s.phase ≠ .fault) {m : List Byte}
    (hm : m.length ≤ Config.maxLen) (n : Nat) :
    ∃ t, Runs s (transactionWords m n) t
        (List.replicate (m.length + 2) (.ok 0) ++ List.replicate n (.ok (tag32 m))) ∧
      Closed t m := by
  have hinit : Runs s [encode .init] (performInit s) [.ok 0] :=
    runs_of_exec (exec_init hp) rfl rfl rfl
  obtain ⟨t, hpushes, hopen⟩ := runs_pushes (absorbing_performInit s) m (by simpa using hm)
  have hfinal : Runs t [encode .final] (performFinal t) [.ok 0] :=
    runs_of_exec (exec_final hopen.phase) rfl rfl rfl
  obtain ⟨u, htags, hclosed⟩ := runs_rdtags (closed_performFinal hopen) n
  have hanswers : [Response.ok 0] ++ List.replicate m.length (.ok 0) ++ [.ok 0] =
      List.replicate (m.length + 2) (.ok 0) := by
    rw [List.singleton_append, ← List.replicate_succ, ← List.replicate_succ']
  exact ⟨u, hanswers ▸ ((hinit.append hpushes).append hfinal).append htags, hclosed⟩

/-- R91 speaks of registers alone. -/
theorem closed_of_sameRegisters {s t : State} {m : List Byte} (h : SameRegisters t s)
    (hs : Closed s m) : Closed t m := by
  rw [eq_withHost_of_sameRegisters h] at hs
  exact { hs with }

/-- Settles O33: the inserted words change no other response and no register, and what is left is a plain
transaction. -/
theorem transactionAnswersTheChecksum : Obligations.TransactionAnswersTheChecksum := by
  intro s m k ws hp hm hws
  have hwords : ws.filter notNopOrRdstat = transactionWords m (k + 1) := hws
  obtain ⟨u, hruns, hclosed⟩ := runs_transactionWords hp hm (k + 1)
  obtain ⟨t, v, rs, ht, hv, htv, hpending, hrs, hkept⟩ :=
    runActions_without_inserted (s := s) (u := s) ⟨rfl, rfl, rfl, rfl, rfl, rfl, rfl, rfl⟩ ws
  have hend : v = withActions u [] := by
    have hrun := hruns.run []
    rw [List.append_nil, ← hwords, hv] at hrun
    exact Host.Outcome.next.inj hrun
  subst hend
  refine ⟨t, ht, ?_, closed_of_sameRegisters htv { hclosed with }, hpending, fun hf => ?_⟩
  · rw [hrs, List.drop_left]
    exact List.append_cancel_left (hkept.symm.trans hruns.responses)
  · obtain ⟨hcause, hfcmd⟩ := faultRecord_empty hp hf
    obtain ⟨-, -, -, -, -, -, hcause', hfcmd'⟩ := htv
    exact ⟨hcause'.trans (hruns.cause.trans hcause), hfcmd'.trans (hruns.fcmd.trans hfcmd)⟩

end Sys2Proof.Machine

/-! PROOFS. Faults (60_exceptions R101, R104, R105): which commands are out of their phase, fault entry,
and what the words do in FAULT. -/

namespace Sys2Proof.Machine

/-! ### The phase check of `execute` -/

/-- Outside FAULT the phase check fails for PUSH and FINAL outside ABSORB and for RDTAG outside DONE
(R101). -/
theorem legalIn_eq_false_iff {i : Instr} {p : Phase} (hp : p ≠ .fault) :
    legalIn i p = false ↔
      ((i = .final ∨ ∃ b, i = .push b) ∧ p ≠ .absorb) ∨ (i = .rdtag ∧ p ≠ .done) := by
  cases i with
  | nop | rdstat | rst | push | final | rdtag => simp [legalIn]
  | init =>
    cases p with
    | fault => contradiction
    | idle | absorb | done => simp [legalIn]

/-- In FAULT the phase check fails for all but NOP, RDSTAT and RST (R105). -/
theorem legalIn_fault_eq_true_iff {i : Instr} :
    legalIn i .fault = true ↔ i = .nop ∨ i = .rdstat ∨ i = .rst := by
  cases i <;> simp [legalIn]

/-- SEQ is the cause of the phase check and of no later one (R103). -/
theorem failedCheck_eq_seq_iff {i : Instr} {s : State} :
    failedCheck i s = some .seq ↔ legalIn i s.phase = false := by
  unfold failedCheck
  cases hl : legalIn i s.phase with
  | false => simp
  | true => cases atLengthLimit i s <;> simp

/-! ### The fault record -/

/-- PUSH does not write CAUSE, whether or not its byte fills BUF (R88). -/
@[simp] theorem performPush_cause (b : Byte) (s : State) : (performPush b s).cause = s.cause := by
  by_cases hfull : s.cnt = 63
  · rw [performPush_of_full b hfull]; rfl
  · rw [performPush_of_not_full b hfull]; rfl

/-- A command that passes the checks of `execute` keeps CAUSE, but for RST, which clears it. -/
theorem exec_cause_of_passed {i : Instr} {s t : State} (hc : failedCheck i s = none)
    (h : exec i s = .next t) : t.cause = s.cause ∨ t.cause = .none := by
  have hissue (f : State → State) : issue i f s = f s := by simp only [issue, hc]
  cases i <;> cases h <;> rw [hissue]
  case push b => exact .inl (performPush_cause _ s)
  case rst => exact .inr rfl
  all_goals exact .inl rfl

/-- Outside FAULT a command newly records SEQ exactly if it fails the phase check. -/
theorem exec_cause_eq_seq_iff {i : Instr} {s t : State} (hp : s.phase ≠ .fault)
    (hcause : s.cause ≠ .seq) (h : exec i s = .next t) :
    t.cause = .seq ↔ failedCheck i s = some .seq := by
  cases hc : failedCheck i s with
  | some c =>
    rw [exec_of_failedCheck hc, reject_outside _ _ _ hp] at h
    cases h
    simp
  | none =>
    obtain hkept | hcleared := exec_cause_of_passed hc h
    · simp [hkept, hcause]
    · simp [hcleared]

/-- Settles O13: outside FAULT by the phase check, which alone records SEQ; in FAULT the four commands
fail it too, and a rejection there records nothing. -/
theorem wrongPhaseRaisesSeq : Obligations.WrongPhaseRaisesSeq := by
  refine ⟨fun i s hp hcause => ?outside, fun i s hp hi => ?inside⟩
  case outside =>
    obtain ⟨t, ht⟩ := exec_next i s
    refine ⟨t, ht, ?_⟩
    rw [exec_cause_eq_seq_iff hp hcause ht, failedCheck_eq_seq_iff, legalIn_eq_false_iff hp]
  case inside =>
    have hl : legalIn i s.phase = false := by
      rw [hp]
      obtain rfl | ⟨b, rfl⟩ | rfl | rfl := hi <;> rfl
    rw [exec_of_failedCheck (failedCheck_eq_seq_iff.mpr hl), reject_inside _ _ _ hp]
    rfl

/-- Settles O10: the cause of R103 is the one the word is rejected with, and outside FAULT a rejection is
fault entry. -/
theorem faultEntryRecordsTheFirstFault : Obligations.FaultEntryRecordsTheFirstFault := by
  intro s w rest c hpending hp hc
  have htaken : rejectionCause w (withActions s rest) = some c := hc
  rw [step_of_command hpending, executeWord_of_rejectionCause htaken,
    reject_outside c w (withActions s rest) hp]
  rfl

/-! ### The words in FAULT -/

section InFault
variable {s : State} {w : CmdWord}

/-- In FAULT every word but those of NOP, RDSTAT and RST fails a check (R105). -/
theorem rejectionCause_inFault (hp : s.phase = .fault) (hnop : w ≠ 0x0000) (hrdstat : w ≠ 0x5000)
    (hrst : w ≠ 0xF000) : ∃ c, rejectionCause w s = some c := by
  refine Option.ne_none_iff_exists'.mp fun hnone => ?_
  obtain ⟨i, hd, hpassed⟩ := command_of_no_rejectionCause hnone
  have hlegal : legalIn i .fault = true := by
    rw [← Bool.not_eq_false, ← hp, ← failedCheck_eq_seq_iff, hpassed]
    simp
  have hw : w = encode i := eq_encode_of_decode hd
  obtain rfl | rfl | rfl := legalIn_fault_eq_true_iff.mp hlegal
  · exact hnop hw
  · exact hrdstat hw
  · exact hrst hw

/-- In FAULT such a word gets the rejected response and writes no register (R105). -/
theorem executeWord_rejected_inFault (hp : s.phase = .fault) (hnop : w ≠ 0x0000)
    (hrdstat : w ≠ 0x5000) (hrst : w ≠ 0xF000) :
    executeWord w s = .next (respond .rejected s) := by
  obtain ⟨c, hc⟩ := rejectionCause_inFault hp hnop hrdstat hrst
  rw [executeWord_of_rejectionCause hc, reject_inside _ _ _ hp]
  rfl

/-- In FAULT every word but that of RST only answers. -/
theorem executeWord_answers_inFault (hp : s.phase = .fault) (hrst : w ≠ 0xF000) :
    ∃ r, executeWord w s = .next (respond r s) := by
  by_cases hw : notNopOrRdstat w = true
  · obtain ⟨hnop, hrdstat⟩ : w ≠ 0x0000 ∧ w ≠ 0x5000 := by simpa [notNopOrRdstat] using hw
    exact ⟨_, executeWord_rejected_inFault hp hnop hrdstat hrst⟩
  · exact executeWord_inserted (by simpa using hw) s

/-- In FAULT any list of words without RST's keeps every register. -/
theorem runActions_inFault (hp : s.phase = .fault) {ws : List CmdWord} (hrst : 0xF000 ∉ ws) :
    ∃ t, runActions s (issueWords ws) = .next t ∧ SameRegisters s t := by
  induction ws generalizing s with
  | nil => exact ⟨_, runActions_nil s, rfl, rfl, rfl, rfl, rfl, rfl, rfl, rfl⟩
  | cons w ws ih =>
    rw [List.mem_cons, not_or] at hrst
    obtain ⟨hw, hws⟩ := hrst
    obtain ⟨r, hr⟩ := executeWord_answers_inFault hp (Ne.symm hw)
    obtain ⟨t, ht, hsame⟩ := ih (s := respond r s) hp hws
    exact ⟨t, (runActions_word hr _).trans ht, hsame⟩

end InFault

/-- Settles O11: the step of a word in FAULT by the four cases of the word, and runs by induction. -/
theorem faultPhaseKeepsEveryRegister : Obligations.FaultPhaseKeepsEveryRegister := by
  refine ⟨fun s w rest hp hpending => ?word, fun s ws hp hrst => runActions_inFault hp hrst⟩
  rw [step_of_command hpending]
  refine ⟨fun hnop hrdstat hrst => ?rejected, ?nop, ?rdstat, ?rst⟩
  case rejected => exact executeWord_rejected_inFault (s := withActions s rest) hp hnop hrdstat hrst
  case nop =>
    rintro rfl
    exact (executeWord_of_command (decode_encode .nop) _).trans (exec_nop _)
  case rdstat =>
    rintro rfl
    exact (executeWord_of_command (decode_encode .rdstat) _).trans (exec_rdstat _)
  case rst =>
    rintro rfl
    exact (executeWord_of_command (decode_encode .rst) _).trans (exec_rst _)

end Sys2Proof.Machine

/-! PROOFS. RST and hardware reset (70_reset_and_hazards R116): the same registers after either, and from
states with the same registers any actions get the same responses. -/

namespace Sys2Proof.Machine

/-- A run that begins with hardware reset goes on from the reset registers (R114). -/
theorem runActions_hardwareReset (s : State) (as : List HostAction) :
    runActions s (.hardwareReset :: as) = runActions (hardwareReset s) as := by
  have hstep : step (withActions s (.hardwareReset :: as)) = .next (withActions (hardwareReset s) as) :=
    step_of_hardwareReset rfl
  exact run_succ _ _ _ hstep

/-- The word of RST is legal in every phase, resets the registers and answers 0 (R96). -/
theorem executeWord_rst (s : State) :
    executeWord 0xF000 s = .next (respond (.ok 0) (resetRegisters s)) :=
  (executeWord_of_command (by decide) s).trans (exec_rst s)

/-- Two engines with the same registers give the same responses to any actions, command words and hardware
resets, and have the same registers after them. -/
theorem runActions_of_sameRegisters {s u : State} (h : SameRegisters s u) (as : List HostAction) :
    ∃ t v rs, runActions s as = .next t ∧ runActions u as = .next v ∧ SameRegisters t v ∧
      t.responses = s.responses ++ rs ∧ v.responses = u.responses ++ rs := by
  induction as generalizing s u with
  | nil => exact ⟨_, _, [], runActions_nil s, runActions_nil u, h, by simp, by simp⟩
  | cons a as ih =>
    cases a with
    | command w =>
      obtain ⟨s', hs'⟩ := executeWord_next w s
      obtain ⟨u', hu'⟩ := executeWord_next w u
      obtain ⟨hresponses, -⟩ := executeWord_response hs'
      obtain ⟨hresponses', -⟩ := executeWord_response hu'
      obtain ⟨h', hsame⟩ := executeWord_of_sameRegisters h hs' hu'
      obtain ⟨t, v, rs, ht, hv, htv, hrs, hrs'⟩ := ih h'
      refine ⟨t, v, responseTo w s :: rs, (runActions_word hs' _).trans ht,
        (runActions_word hu' _).trans hv, htv, ?_, ?_⟩
      · simp [hrs, hresponses]
      · simp [hrs', hresponses', hsame]
    | hardwareReset =>
      have h' : SameRegisters (hardwareReset s) (hardwareReset u) :=
        ⟨rfl, rfl, rfl, rfl, rfl, rfl, rfl, rfl⟩
      obtain ⟨t, v, rs, ht, hv, htv, hrs, hrs'⟩ := ih h'
      exact ⟨t, v, rs, (runActions_hardwareReset s as).trans ht,
        (runActions_hardwareReset u as).trans hv, htv, hrs, hrs'⟩

/-- Settles O29: both resets end in the reset registers, and what comes later sees only the registers. -/
theorem rstAndHardwareResetAgree : Obligations.RstAndHardwareResetAgree := by
  intro s later
  let t := withActions (respond (.ok 0) (resetRegisters s)) []
  let u := withActions (hardwareReset s) []
  have ht : runActions s [.command 0xF000] = .next t :=
    (runActions_word (executeWord_rst s) []).trans (runActions_nil _)
  have hu : runActions s [.hardwareReset] = .next u :=
    (runActions_hardwareReset s []).trans (runActions_nil _)
  have htu : SameRegisters t u := ⟨rfl, rfl, rfl, rfl, rfl, rfl, rfl, rfl⟩
  obtain ⟨t', u', rs, ht', hu', -, hrs, hrs'⟩ := runActions_of_sameRegisters htu later
  refine ⟨t, u, ht, hu, htu, rfl, rfl, t', u', ht', hu', ?_⟩
  rw [hrs, hrs', List.drop_left, List.drop_left]

end Sys2Proof.Machine

/-! PROOFS. The encoder and one step: every command has one word, and a step runs the host's next action. -/

namespace Sys2Proof.Machine

/-! ### Encoding -/

/-- The fields of every command pass the three checks of R58. -/
theorem encodeFields_wellFormed (i : Instr) : (encodeFields i).wellFormed = true := by
  cases i <;> rfl

/-- The word of every command is well-formed (R58): its fields are those it was made from. -/
theorem wellFormed_instr (i : Instr) : i.wellFormed = true := by
  rw [Instr.wellFormed, encode, ofWord_toWord, encodeFields_wellFormed]

/-- Settles O1: the fields read back are those of the command, well-formed and of its opcode. -/
theorem decodeOfEncodeIsTheCommand : Obligations.DecodeOfEncodeIsTheCommand :=
  fun i => ⟨wellFormed_instr i, decode_encode i⟩

/-- Settles O2: the three checks leave only the fields of the command. -/
theorem eachCommandHasOneWord : Obligations.EachCommandHasOneWord :=
  fun _ _ hd => eq_encode_of_decode hd

/-- Settles O4: seven words are encodings, and the two illegal ones are read field by field. -/
theorem specWordsDecode : Obligations.SpecWordsDecode :=
  ⟨decode_encode .nop, decode_encode .init, decode_encode (.push 0x61), decode_encode .final,
    decode_encode .rdtag, decode_encode .rdstat, decode_encode .rst, by decide, by decide⟩

/-! ### One step -/

/-- Settles O5: the step executes the word with the word taken, and the word is the command. -/
theorem stepRunsTheDecodedCommand : Obligations.StepRunsTheDecodedCommand := by
  intro s w rest i hpending hd _
  rw [step_of_command hpending, executeWord_of_command hd]
  rfl

/-- Settles O6, by the branch of a step with nothing pending. -/
theorem stepWaitsForTheHost : Obligations.StepWaitsForTheHost := by
  intro s hpending
  simp only [step, takeAction, hpending]

/-- Settles O8: waiting, hardware reset, a command and an illegal word each have a next state. -/
theorem everyStateHasANextState : Obligations.EveryStateHasANextState := by
  intro s
  obtain ⟨-, hstep⟩ | ⟨_, -, hstep⟩ | ⟨_, i, _, -, -, hstep⟩ | ⟨_, _, _, -, -, hstep⟩ := step_cases s
  · exact ⟨_, hstep⟩
  · exact ⟨_, hstep⟩
  · rw [hstep]
    exact exec_next i _
  · exact ⟨_, hstep⟩

end Sys2Proof.Machine

/-! PROOFS. The commands one by one (41 to 43, R87 to R96): the equation of each, and what each leaves
unchanged. -/

namespace Sys2Proof.Machine

/-! ### A command is rejected or performed -/

/-- The message byte is the operand as it stands (R57). -/
@[simp] theorem messageByte_eq (b : Byte) : messageByte b = b := BitVec.setWidth_eq b

/-- What a command does once it has passed the checks of `execute` (R87 to R96). -/
def performed : Instr → State → State
  | .nop, s => respond (.ok 0) s
  | .init, s => performInit s
  | .push b, s => performPush b s
  | .final, s => performFinal s
  | .rdtag, s => respond (.ok s.tag) s
  | .rdstat, s => respond (.ok (statusWord s)) s
  | .rst, s => respond (.ok 0) (resetRegisters s)

/-- A command that passes the checks of `execute` is performed. -/
theorem exec_of_passed {i : Instr} {s : State} (hc : failedCheck i s = none) :
    exec i s = .next (performed i s) := by
  have hissue (f : State → State) : issue i f s = f s := by simp only [issue, hc]
  cases i with
  | push b => exact congrArg Host.Outcome.next ((hissue _).trans (by rw [messageByte_eq]; rfl))
  | _ => exact congrArg Host.Outcome.next (hissue _)

/-- A command is rejected with the cause of the check it fails, or performed. -/
theorem exec_cases {i : Instr} {s t : State} (ht : exec i s = .next t) :
    (∃ c, failedCheck i s = some c ∧ t = reject c (encode i) s) ∨
      (failedCheck i s = none ∧ t = performed i s) := by
  cases hc : failedCheck i s with
  | some c => exact .inl ⟨c, rfl, Host.Outcome.next.inj (ht.symm.trans (exec_of_failedCheck hc))⟩
  | none => exact .inr ⟨rfl, Host.Outcome.next.inj (ht.symm.trans (exec_of_passed hc))⟩

/-- A word is rejected with the cause of R103, or it is a command that is performed. -/
theorem executeWord_cases {w : CmdWord} {s t : State} (ht : executeWord w s = .next t) :
    (∃ c, rejectionCause w s = some c ∧ t = reject c w s) ∨
      (∃ i, rejectionCause w s = none ∧ decode w = .command i ∧ failedCheck i s = none ∧
        t = performed i s) := by
  cases hc : rejectionCause w s with
  | some c =>
    exact .inl ⟨c, rfl, Host.Outcome.next.inj (ht.symm.trans (executeWord_of_rejectionCause hc))⟩
  | none =>
    obtain ⟨i, hd, hi⟩ := command_of_no_rejectionCause hc
    rw [executeWord_of_command hd, exec_of_passed hi] at ht
    exact .inr ⟨i, rfl, hd, hi, (Host.Outcome.next.inj ht).symm⟩

/-! ### The control and readout commands -/

/-- Settles O16, by NOP's equation. -/
theorem nopKeepsEveryRegister : Obligations.NopKeepsEveryRegister :=
  exec_nop

/-- Settles O17, by INIT's equation, with IV as R70 writes it. -/
theorem initOpensAMessage : Obligations.InitOpensAMessage :=
  fun _ hp => exec_init hp

/-- Settles O21, by RDTAG's equation. -/
theorem rdtagReadsTheTag : Obligations.RdtagReadsTheTag :=
  fun _ hp => exec_rdtag hp

/-- Settles O22, by RDSTAT's equation, with STATUS as R24 lays it out. -/
theorem rdstatReadsTheStatus : Obligations.RdstatReadsTheStatus :=
  exec_rdstat

/-- Settles O23, by RST's equation, with the reset registers written out. -/
theorem rstZeroesEveryRegister : Obligations.RstZeroesEveryRegister :=
  exec_rst

/-! ### PUSH -/

/-- The word of PUSH as a number (R56). -/
theorem encode_push_toNat (b : Byte) : (encode (.push b)).toNat = 0x2000 + b.toNat := by
  have hbyte : b.toNat < 2 ^ 8 := b.isLt
  simp only [encode, encodeFields, Fields.toWord, BitVec.toNat_append,
    ← Nat.shiftLeft_add_eq_or_of_lt hbyte]
  rfl

/-- The word of PUSH: its opcode above its byte (R52, R56). -/
theorem encode_push (b : Byte) : encode (.push b) = 0x2000 + b.zeroExtend 16 := by
  have hword := encode_push_toNat b
  bv_omega

/-- In ABSORB only the length check is left for PUSH (R86, R89). -/
theorem failedCheck_push_at_limit (b : Byte) {s : State} (hp : s.phase = .absorb)
    (hlen : s.len.toNat = Config.maxLen) : failedCheck (.push b) s = some .lenovf := by
  simp [failedCheck, legalIn, atLengthLimit, hp, hlen]

/-- Settles O14: the length check fails, and the rejection is fault entry with PUSH's own word. -/
theorem pushAtTheLengthLimitFaults : Obligations.PushAtTheLengthLimitFaults := by
  intro b s hp hlen
  rw [exec_of_failedCheck (failedCheck_push_at_limit b hp hlen), reject_outside _ _ _ (by simp [hp]),
    encode_push]
  rfl

/-- Settles O18: PUSH is performed, and its byte leaves room. -/
theorem pushStoresTheByteAndCounts : Obligations.PushStoresTheByteAndCounts := by
  intro b s hp hlen hroom
  rw [exec_push b hp hlen, messageByte_eq, performPush_of_not_full b hroom]
  rfl

/-- Settles O19: PUSH is performed, and its byte fills BUF. -/
theorem pushOfTheLastByteCompresses : Obligations.PushOfTheLastByteCompresses := by
  intro b s hp hlen hfull
  rw [exec_push b hp hlen, messageByte_eq, performPush_of_full b hfull, hfull]
  rfl

/-- Storing one byte leaves every other address as it reads, inside BUF and outside it. -/
theorem memRead_one_memWrite_ne (buf : Block) (b : Byte) {a a' : Nat} (h : a ≠ a') :
    memRead (memWrite buf a' [b]) a 1 = memRead buf a 1 := by
  by_cases hin : a < 64
  · have houtside : a < a' ∨ a' + [b].length ≤ a := by
      rw [List.length_singleton]; omega
    rw [memRead_one _ _ hin, memRead_one _ _ hin, memWrite_getElem_outside _ _ _ _ hin houtside]
  · rw [memRead_one_outside _ _ (by omega), memRead_one_outside _ _ (by omega)]

/-- PUSH stores its byte at CNT, whether or not that fills BUF (R88). -/
@[simp] theorem performPush_buf (b : Byte) (s : State) :
    (performPush b s).buf = memWrite s.buf s.cnt.toNat [b] := by
  by_cases hfull : s.cnt = 63
  · rw [performPush_of_full b hfull]; rfl
  · rw [performPush_of_not_full b hfull]; rfl

/-- PUSH writes none of PHASE, TAG, CAUSE, FCMD and the actions to come (R88). -/
theorem performPush_frame (b : Byte) (s : State) :
    (performPush b s).phase = s.phase ∧ (performPush b s).tag = s.tag ∧
      (performPush b s).cause = s.cause ∧ (performPush b s).fcmd = s.fcmd ∧
      (performPush b s).pending = s.pending := by
  by_cases hfull : s.cnt = 63
  · rw [performPush_of_full b hfull]; exact ⟨rfl, rfl, rfl, rfl, rfl⟩
  · rw [performPush_of_not_full b hfull]; exact ⟨rfl, rfl, rfl, rfl, rfl⟩

/-- Settles O24: a rejected PUSH stores nothing and answers `err` = 1; a performed one stores at CNT and
answers `err` = 0. -/
theorem pushFrame : Obligations.PushFrame := by
  intro b s t ht
  obtain ⟨c, -, rfl⟩ | ⟨-, rfl⟩ := exec_cases ht
  · simp [Response.rejected]
  · obtain ⟨hphase, htag, hcause, hfcmd, hpending⟩ := performPush_frame b s
    dsimp only [performed]
    refine ⟨fun a ha => ?_, htag, hpending, fun hroom => ?_, fun hresponses => ?_,
      fun _ => ⟨hphase, hcause, hfcmd⟩⟩
    · rw [performPush_buf, memRead_one_memWrite_ne _ _ ha]
    · rw [performPush_of_not_full b hroom]; rfl
    · simp [Response.ok] at hresponses

/-! ### The commands that store no byte -/

/-- INIT in FAULT only answers (R105). -/
theorem exec_init_inFault {s : State} (hp : s.phase = .fault) :
    exec .init s = .next (respond .rejected s) := by
  have hl : legalIn .init s.phase = false := by rw [hp]; rfl
  rw [exec_of_failedCheck (failedCheck_eq_seq_iff.mpr hl), reject_inside _ _ _ hp]
  rfl

/-- Settles O25: each of the four is a response, a rejection or the writes of INIT, and none is to BUF. -/
theorem nonStoringFrame : Obligations.NonStoringFrame := by
  intro i s t hi ht
  obtain rfl | rfl | rfl | rfl := hi
  · by_cases hp : s.phase = .fault
    · cases (exec_init_inFault hp).symm.trans ht
      exact ⟨fun _ => rfl, rfl, fun h => absurd rfl h, fun _ => ⟨rfl, rfl⟩, by simp⟩
    · cases (exec_init hp).symm.trans ht
      exact ⟨fun _ => rfl, rfl, fun h => absurd rfl h, fun _ => ⟨rfl, rfl⟩, by simp⟩
  · obtain ⟨c, -, rfl⟩ | ⟨-, rfl⟩ := exec_cases ht
    · simp
    · exact ⟨fun _ => rfl, rfl, fun _ => ⟨rfl, rfl, rfl, rfl⟩, by simp, by simp⟩
  · cases (exec_rdstat s).symm.trans ht
    exact ⟨fun _ => rfl, rfl, fun _ => ⟨rfl, rfl, rfl, rfl⟩, by simp,
      fun _ => sameRegisters_respond _ s⟩
  · cases (exec_nop s).symm.trans ht
    exact ⟨fun _ => rfl, rfl, fun _ => ⟨rfl, rfl, rfl, rfl⟩, by simp,
      fun _ => sameRegisters_respond _ s⟩

/-! ### FINAL -/

/-- The block of the second pass, cut from the digest of the first and its padding (R78, R90). -/
theorem blockAt_second_pass (d1 : HashState) (buf : Block) :
    blockAt (digestBytes d1 ++ [0x80] ++ List.replicate 29 0 ++ [0x01, 0x00]) 0 =
      secondPassBlock d1 buf := by
  refine blockAt_eq_of_memRead ?_
  rw [memRead_whole, secondPassBlock_toList, Nat.mul_zero, List.drop_zero,
    List.take_of_length_le (by simp)]

/-- Settles O20: the first pass ends with the padded tail, and what it leaves in BUF is overwritten. -/
theorem finalRunsBothPasses : Obligations.FinalRunsBothPasses := by
  intro s hp rest d1 block h
  have hfirst : (finishFirstPass s.h s.buf s.cnt.toNat s.len.toNat).1 = d1 :=
    finishFirstPass_fst s.h s.buf s.cnt.isLt s.len.toNat
  have hblock : secondPassBlock (finishFirstPass s.h s.buf s.cnt.toNat s.len.toNat).1
      (finishFirstPass s.h s.buf s.cnt.toNat s.len.toNat).2 = block := by
    rw [hfirst]
    exact (blockAt_second_pass d1 _).symm
  rw [exec_final hp, performFinal]
  dsimp only
  rw [hblock]
  rfl

end Sys2Proof.Machine

/-! PROOFS. PHASE and the fault record after every word (10_state R16, 60_exceptions R98 to R106). -/

namespace Sys2Proof.Machine

/-! ### PHASE -/

/-- The phase after a command that is performed (R16). -/
def phaseAfterCommand : Instr → Phase → Phase
  | .init, _ => .absorb
  | .final, _ => .done
  | .rst, _ => .idle
  | _, p => p

theorem performed_phase (i : Instr) (s : State) :
    (performed i s).phase = phaseAfterCommand i s.phase := by
  cases i with
  | push b =>
    obtain ⟨hphase, -⟩ := performPush_frame b s
    exact hphase
  | _ => rfl

/-- The transition table on the word of a command that passes the checks. -/
theorem phaseAfter_of_passed {w : CmdWord} {i : Instr} {s : State} (hd : decode w = .command i)
    (hc : rejectionCause w s = none) : phaseAfter w s = phaseAfterCommand i s.phase := by
  have hinit : w = 0x1000 ↔ i = .init := eq_encode_iff (j := .init) hd (decode_encode _)
  have hfinal : w = 0x3000 ↔ i = .final := eq_encode_iff (j := .final) hd (decode_encode _)
  have hrst : w = 0xF000 ↔ i = .rst := eq_encode_iff (j := .rst) hd (decode_encode _)
  simp only [phaseAfter, hc, hinit, hfinal, hrst]
  cases i <;> rfl

/-- The transition table on a rejected word. -/
theorem phaseAfter_of_rejected {w : CmdWord} {s : State} {c : Cause}
    (hc : rejectionCause w s = some c) : phaseAfter w s = .fault := by
  simp [phaseAfter, hc]

/-- PHASE after a word, rejected or performed, is that of the transition table. -/
theorem executeWord_phase {w : CmdWord} {s t : State} (ht : executeWord w s = .next t) :
    t.phase = phaseAfter w s := by
  obtain ⟨c, hc, rfl⟩ | ⟨i, hc, hd, -, rfl⟩ := executeWord_cases ht
  · rw [reject_phase, phaseAfter_of_rejected hc]
  · rw [performed_phase, phaseAfter_of_passed hd hc]

/-- Settles O9: a word by `executeWord_phase`, hardware reset by its registers. -/
theorem phaseFollowsTheTransitionTable : Obligations.PhaseFollowsTheTransitionTable := by
  refine ⟨fun s t w rest hpending hstep => ?word, fun s t rest hpending hstep => ?reset⟩
  case word =>
    rw [step_of_command hpending] at hstep
    exact executeWord_phase (s := withActions s rest) hstep
  case reset =>
    cases (step_of_hardwareReset hpending).symm.trans hstep
    rfl

/-! ### Leaving FAULT -/

/-- A step waits, resets the hardware or executes a word. -/
theorem step_next_cases {s t : State} (hstep : step s = .next t) :
    t = s ∨
      (∃ rest, s.pending = .hardwareReset :: rest ∧ t = hardwareReset (withActions s rest)) ∨
      ∃ w rest, s.pending = .command w :: rest ∧ executeWord w (withActions s rest) = .next t := by
  match hpending : s.pending with
  | [] =>
    exact .inl (Host.Outcome.next.inj (hstep.symm.trans (stepWaitsForTheHost s hpending)))
  | .hardwareReset :: rest =>
    exact .inr (.inl ⟨rest, rfl,
      Host.Outcome.next.inj (hstep.symm.trans (step_of_hardwareReset hpending))⟩)
  | .command w :: rest =>
    exact .inr (.inr ⟨w, rest, rfl, (step_of_command hpending).symm.trans hstep⟩)

/-- Settles O12: in FAULT waiting and every word but RST's keep PHASE. -/
theorem onlyResetLeavesFault : Obligations.OnlyResetLeavesFault := by
  intro s t hp hstep hleft
  obtain rfl | ⟨rest, hpending, rfl⟩ | ⟨w, rest, hpending, hw⟩ := step_next_cases hstep
  · exact absurd hp hleft
  · exact ⟨⟨rest, .inr hpending⟩, sameRegisters_resetRegisters _⟩
  · by_cases hrst : w = 0xF000
    · subst hrst
      cases (executeWord_rst _).symm.trans hw
      exact ⟨⟨rest, .inl hpending⟩, sameRegisters_resetRegisters (withActions s rest)⟩
    · obtain ⟨r, hr⟩ := executeWord_answers_inFault (s := withActions s rest) hp hrst
      cases hr.symm.trans hw
      exact absurd hp hleft

/-! ### The fault record -/

/-- An illegal word has one of the two causes of R58. -/
theorem cause_of_illegal {w : CmdWord} {c : Cause} (hd : decode w = .illegal c) :
    c = .illop ∨ c = .illfld := by
  let f := Fields.ofWord w
  have hf : decodeFields f = .illegal c := hd
  by_cases h1 : f.opDefined = true
  · by_cases h23 : f.rsvdZero = true ∧ f.immAllowed = true
    · obtain ⟨h2, h3⟩ := h23
      cases (decodeFields_of_checks h1 h2 h3).symm.trans hf
    · cases (decodeFields_of_bad_field h1 h23).symm.trans hf
      exact .inr rfl
  · cases (decodeFields_of_not_opDefined h1).symm.trans hf
    exact .inl rfl

/-- Only PUSH has a length check (R89). -/
theorem push_of_atLengthLimit {i : Instr} {s : State} (h : atLengthLimit i s = true) :
    ∃ b, i = .push b := by
  cases i with
  | push b => exact ⟨b, rfl⟩
  | _ => cases h

/-- A well-formed command fails the phase check or, if it is PUSH, the length check (R103). -/
theorem failedCheck_eq_some {i : Instr} {s : State} {c : Cause} (hc : failedCheck i s = some c) :
    (c = .seq ∧ legalIn i s.phase = false) ∨ (c = .lenovf ∧ ∃ b, i = .push b) := by
  unfold failedCheck at hc
  cases hl : legalIn i s.phase with
  | false => exact .inl ⟨by simpa [hl] using hc.symm, rfl⟩
  | true =>
    cases ha : atLengthLimit i s with
    | false => simp [hl, ha] at hc
    | true => exact .inr ⟨by simpa [hl, ha] using hc.symm, push_of_atLengthLimit ha⟩

/-- Where each cause of R98 comes from. -/
theorem rejectionCause_eq_some {w : CmdWord} {s : State} {c : Cause}
    (hc : rejectionCause w s = some c) :
    (c = .illop ∧ decode w = .illegal .illop) ∨ (c = .illfld ∧ decode w = .illegal .illfld) ∨
      (c = .seq ∧ ∃ i, w = encode i ∧ legalIn i s.phase = false) ∨
      (c = .lenovf ∧ ∃ b, w = encode (.push b)) := by
  rw [rejectionCause_eq] at hc
  cases hd : decode w with
  | illegal c' =>
    rw [hd] at hc
    obtain rfl : c' = c := Option.some.inj hc
    obtain rfl | rfl := cause_of_illegal hd
    · exact .inl ⟨rfl, rfl⟩
    · exact .inr (.inl ⟨rfl, rfl⟩)
  | command i =>
    rw [hd] at hc
    have hw := eq_encode_of_decode hd
    obtain ⟨hseq, hl⟩ | ⟨hlenovf, b, rfl⟩ := failedCheck_eq_some hc
    · exact .inr (.inr (.inl ⟨hseq, i, hw, hl⟩))
    · exact .inr (.inr (.inr ⟨hlenovf, b, hw⟩))

/-- Fault entry records a word its cause can come from. -/
theorem faultWordSound_reject {w : CmdWord} {s : State} {c : Cause} (hp : s.phase ≠ .fault)
    (hc : rejectionCause w s = some c) : FaultWordSound (reject c w s) := by
  rw [reject_outside c w s hp]
  intro _
  obtain hillop | hillfld | ⟨hseq, i, rfl, hl⟩ | hlenovf := rejectionCause_eq_some hc
  · exact .inl hillop
  · exact .inr (.inl hillfld)
  · obtain ⟨rfl | ⟨b, rfl⟩, -⟩ | ⟨rfl, -⟩ := (legalIn_eq_false_iff hp).mp hl
    · exact .inr (.inr (.inl ⟨hseq, .inl rfl⟩))
    · exact .inr (.inr (.inl ⟨hseq, .inr (.inr ⟨b, rfl⟩)⟩))
    · exact .inr (.inr (.inl ⟨hseq, .inr (.inl rfl)⟩))
  · exact .inr (.inr (.inr hlenovf))

/-- A command performed outside FAULT ends outside FAULT. -/
theorem performed_phase_ne_fault (i : Instr) {s : State} (hp : s.phase ≠ .fault) :
    (performed i s).phase ≠ .fault := by
  rw [performed_phase]
  cases i with
  | init | final | rst => exact Phase.noConfusion
  | nop | push | rdtag | rdstat => exact hp

/-- Every word keeps the fault record sound: outside FAULT by fault entry, in FAULT because only RST
writes it. -/
theorem faultWordSound_executeWord {w : CmdWord} {s t : State} (hs : FaultWordSound s)
    (ht : executeWord w s = .next t) : FaultWordSound t := by
  by_cases hp : s.phase = .fault
  · by_cases hrst : w = 0xF000
    · subst hrst
      cases (executeWord_rst s).symm.trans ht
      exact Phase.noConfusion
    · obtain ⟨r, hr⟩ := executeWord_answers_inFault hp hrst
      cases hr.symm.trans ht
      exact hs
  · obtain ⟨c, hc, rfl⟩ | ⟨i, -, -, -, rfl⟩ := executeWord_cases ht
    · exact faultWordSound_reject hp hc
    · exact fun hfault => absurd hfault (performed_phase_ne_fault i hp)

/-- Settles O15: waiting keeps the record, reset leaves FAULT, and a word keeps the record sound. -/
theorem faultRecordNamesItsWord : Obligations.FaultRecordNamesItsWord := by
  intro s t hs hstep
  obtain rfl | ⟨rest, -, rfl⟩ | ⟨w, rest, -, hw⟩ := step_next_cases hstep
  · exact hs
  · exact Phase.noConfusion
  · exact faultWordSound_executeWord (s := withActions s rest) hs hw

end Sys2Proof.Machine

/-! PROOFS. The invariant between commands (10_state R29): it speaks of registers alone, and holds after a
reset, a rejection and every command that is performed. -/

namespace Sys2Proof.Machine

/-! ### States that are sound -/

theorem registersReset_withHost {s : State} (hs : RegistersReset s) (as : List HostAction)
    (rs : List Response) : RegistersReset (withHost s as rs) := by
  have hreset : withHost s as rs = withHost (resetRegisters s) as rs :=
    congrArg (withHost · as rs) hs
  exact hreset

theorem soundOutsideFault_withHost {s : State} (hs : SoundOutsideFault s) (as : List HostAction)
    (rs : List Response) : SoundOutsideFault (withHost s as rs) := by
  obtain ⟨hrecord, hp, hidle, habsorb, hdone⟩ := hs
  exact ⟨hrecord, hp, fun h => registersReset_withHost (hidle h) as rs,
    fun h => (habsorb h).imp fun _ hm => { hm with },
    fun h => (hdone h).imp fun _ hm => { hm with }⟩

/-- The invariant does not look at the host interface. -/
theorem sound_withHost {s : State} (hs : Sound s) (as : List HostAction) (rs : List Response) :
    Sound (withHost s as rs) := by
  obtain hout | ⟨hp, hcause, before, hbefore, heq⟩ := hs
  · exact .inl (soundOutsideFault_withHost hout as rs)
  · exact .inr ⟨hp, hcause, before, hbefore, congrArg (withHost · as rs) heq⟩

/-- The reset registers are sound (R29 (b)). -/
theorem sound_resetRegisters (s : State) : Sound (resetRegisters s) :=
  .inl ⟨⟨⟨Phase.noConfusion, fun h => absurd rfl h⟩, fun _ => rfl⟩, Phase.noConfusion, fun _ => rfl,
    Phase.noConfusion, Phase.noConfusion⟩

/-- Settles O30: the reset state has the reset registers. -/
theorem resetStateIsSound : Obligations.ResetStateIsSound :=
  sound_resetRegisters State.reset

/-- Outside FAULT only the first part of the invariant can hold. -/
theorem outsideFault_of_sound {s : State} (hs : Sound s) (hp : s.phase ≠ .fault) : SoundOutsideFault s :=
  hs.resolve_right fun ⟨hfault, _⟩ => hp hfault

/-- An open message with an empty fault record is sound (R29 (c)). -/
theorem sound_of_absorbing {s : State} {m : List Byte} (hs : Absorbing s m) (hcause : s.cause = .none)
    (hfcmd : s.fcmd = 0) : Sound s := by
  have hp := hs.phase
  exact .inl ⟨⟨by simp [hp, hcause], fun _ => hfcmd⟩, by simp [hp], by simp [hp], fun _ => ⟨m, hs⟩,
    by simp [hp]⟩

/-- A closed message with an empty fault record is sound (R29 (d)). -/
theorem sound_of_closed {s : State} {m : List Byte} (hs : Closed s m) (hcause : s.cause = .none)
    (hfcmd : s.fcmd = 0) : Sound s := by
  have hp := hs.phase
  exact .inl ⟨⟨by simp [hp, hcause], fun _ => hfcmd⟩, by simp [hp], by simp [hp], by simp [hp],
    fun _ => ⟨m, hs⟩⟩

/-! ### Rejections and commands -/

/-- Fault entry keeps the registers of a sound state (R29 (e)), and a rejection in FAULT keeps them all. -/
theorem sound_reject {s : State} (hs : Sound s) {c : Cause} (hc : c ≠ .none) (w : CmdWord) :
    Sound (reject c w s) := by
  by_cases hp : s.phase = .fault
  · rw [reject_inside c w s hp]
    exact sound_withHost hs _ _
  · rw [reject_outside c w s hp]
    exact .inr ⟨rfl, hc, s, outsideFault_of_sound hs hp, rfl⟩

/-- No word is rejected with NONE (R98). -/
theorem rejectionCause_ne_some_none (w : CmdWord) (s : State) : rejectionCause w s ≠ some .none := by
  intro hc
  obtain ⟨h, -⟩ | ⟨h, -⟩ | ⟨h, -⟩ | ⟨h, -⟩ := rejectionCause_eq_some hc <;> cases h

/-- A command that passes the checks is legal in its phase. -/
theorem legalIn_of_passed {i : Instr} {s : State} (hc : failedCheck i s = none) :
    legalIn i s.phase = true := by
  rw [← Bool.not_eq_false, ← failedCheck_eq_seq_iff, hc]
  simp

/-- A PUSH that passes the checks finds room below the length limit (R89). -/
theorem len_lt_of_passed {b : Byte} {s : State} (hc : failedCheck (.push b) s = none) :
    s.len.toNat < Config.maxLen := by
  have hl := legalIn_of_passed hc
  have hne : s.len.toNat ≠ Config.maxLen := by
    simpa [failedCheck, hl, atLengthLimit] using hc
  have hlt : s.len.toNat < 2 ^ 61 := s.len.isLt
  unfold Config.maxLen at hne ⊢
  omega

/-- A sound state in ABSORB holds an open message, and its fault record is empty. -/
theorem absorbing_of_sound {s : State} (hs : Sound s) (hp : s.phase = .absorb) :
    (∃ m, Absorbing s m) ∧ s.cause = .none ∧ s.fcmd = 0 := by
  have hp' : s.phase ≠ .fault := by simp [hp]
  obtain ⟨hrecord, -, -, habsorb, -⟩ := outsideFault_of_sound hs hp'
  exact ⟨habsorb hp, faultRecord_empty hp' hrecord⟩

/-- Every command that is performed keeps the invariant. -/
theorem sound_performed {i : Instr} {s : State} (hs : Sound s) (hc : failedCheck i s = none) :
    Sound (performed i s) := by
  have hl := legalIn_of_passed hc
  cases i with
  | nop | rdtag | rdstat => exact sound_withHost hs _ _
  | rst => exact sound_withHost (sound_resetRegisters s) _ _
  | init =>
    have hp : s.phase ≠ .fault := by rintro hp; simp [legalIn, hp] at hl
    obtain ⟨hrecord, -⟩ := outsideFault_of_sound hs hp
    obtain ⟨hcause, hfcmd⟩ := faultRecord_empty hp hrecord
    exact sound_of_absorbing (absorbing_performInit s) hcause hfcmd
  | push b =>
    obtain ⟨⟨m, hm⟩, hcause, hfcmd⟩ := absorbing_of_sound hs (by simpa [legalIn] using hl)
    obtain ⟨-, -, hcause', hfcmd', -⟩ := performPush_frame b s
    have hroom : m.length < Config.maxLen := hm.len ▸ len_lt_of_passed hc
    exact sound_of_absorbing (absorbing_performPush hm hroom b) (hcause'.trans hcause)
      (hfcmd'.trans hfcmd)
  | final =>
    obtain ⟨⟨m, hm⟩, hcause, hfcmd⟩ := absorbing_of_sound hs (by simpa [legalIn] using hl)
    exact sound_of_closed (closed_performFinal hm) hcause hfcmd

/-- Settles O31: a step waits, resets, or executes a word, which is rejected or performed. -/
theorem everyStepKeepsSound : Obligations.EveryStepKeepsSound := by
  intro s t hs hstep
  obtain rfl | ⟨rest, -, rfl⟩ | ⟨w, rest, -, hw⟩ := step_next_cases hstep
  · exact hs
  · exact sound_resetRegisters _
  · have htaken : Sound (withActions s rest) := sound_withHost hs rest s.responses
    obtain ⟨c, hc, rfl⟩ | ⟨i, -, -, hi, rfl⟩ := executeWord_cases hw
    · have hne : c ≠ .none := by
        rintro rfl
        exact rejectionCause_ne_some_none w _ hc
      exact sound_reject htaken hne w
    · exact sound_performed htaken hi

end Sys2Proof.Machine

/-! PROOFS. The bytes PUSH absorbs and the words that may stand anywhere (10_state R29, 41 R92), as runs. -/

namespace Sys2Proof.Machine

/-- The words of a run and no more: it ends with nothing to come. -/
theorem Runs.runActions {s t : State} {ws : List CmdWord} {rs : List Response}
    (h : Runs s ws t rs) : runActions s (issueWords ws) = .next (withActions t []) := by
  have hrun := h.run []
  rwa [List.append_nil] at hrun

/-- Settles O32: INIT opens the empty message and the PUSHes extend it to `m`. -/
theorem pushedBytesAreAbsorbed : Obligations.PushedBytesAreAbsorbed := by
  intro s m hp hm
  have hinit : Runs s [encode .init] (performInit s) [.ok 0] :=
    runs_of_exec (exec_init hp) rfl rfl rfl
  have hroom : ([] : List Byte).length + m.length ≤ Config.maxLen := by
    rwa [List.length_nil, Nat.zero_add]
  obtain ⟨t, hpushes, hopen⟩ := runs_pushes (absorbing_performInit s) m hroom
  have hall := hinit.append hpushes
  exact ⟨withActions t [], hall.runActions, { hopen with }, hall.responses⟩

/-- Settles O34, from the same registers before both runs. -/
theorem nopAndRdstatAreTransparent : Obligations.NopAndRdstatAreTransparent := by
  intro s ws
  obtain ⟨t, u, rs, ht, hu, htu, -, hrs, hkept⟩ :=
    runActions_without_inserted (s := s) (u := s) ⟨rfl, rfl, rfl, rfl, rfl, rfl, rfl, rfl⟩ ws
  refine ⟨t, u, ht, hu, htu, ?_⟩
  rw [hrs, hkept, List.drop_left, List.drop_left]
  rfl

end Sys2Proof.Machine

/-! PROOFS. The word functions of the checksum bit by bit (R68, R69), its domain (R77), its examples (R76,
R80) and the bytes of the tag (R40). -/

namespace Sys2Proof.Machine

/-! ### The word functions -/

/-- A bit of ROTR: below the top `n` bits it comes from SHR, in them from the low bits (R68). -/
theorem rotr_getLsbD (x : Word) {n i : Nat} (hn : 0 < n) (hn32 : n < 32) (hi : i < 32) :
    (rotr x n).getLsbD i = x.getLsbD ((i + n) % 32) := by
  rw [rotr, shr, BitVec.getLsbD_or, BitVec.getLsbD_ushiftRight, BitVec.getLsbD_shiftLeft]
  by_cases hbelow : i + n < 32
  · have hleft : i < 32 - n := by omega
    simp [hleft, Nat.mod_eq_of_lt hbelow, Nat.add_comm n i]
  · have hleft : ¬i < 32 - n := by omega
    have hindex : (i + n) % 32 = i - (32 - n) := by omega
    have hgone : x.getLsbD (n + i) = false := BitVec.getLsbD_of_ge _ _ (by omega)
    simp [hleft, hindex, hgone, hi]

/-- A bit of Ch is chosen by the bit of the first argument (R69). -/
theorem ch_getLsbD (x y z : Word) (i : Nat) :
    (ch x y z).getLsbD i = if x.getLsbD i then y.getLsbD i else z.getLsbD i := by
  by_cases hi : i < 32
  · rw [ch, BitVec.getLsbD_xor, BitVec.getLsbD_and, BitVec.getLsbD_and, BitVec.getLsbD_not]
    cases x.getLsbD i <;> simp [hi]
  · simp [BitVec.getLsbD_of_ge _ _ (Nat.le_of_not_lt hi)]

/-- A bit of Maj is 1 if at least two of the three bits are (R69). -/
theorem maj_getLsbD (x y z : Word) (i : Nat) :
    (maj x y z).getLsbD i =
      decide (2 ≤ (x.getLsbD i).toNat + (y.getLsbD i).toNat + (z.getLsbD i).toNat) := by
  have hvote : ∀ a b c : Bool,
      ((a && b) ^^ (a && c) ^^ (b && c)) = decide (2 ≤ a.toNat + b.toNat + c.toNat) := by
    decide
  rw [← hvote]
  simp [maj]

/-- Settles O36: each function by its bits, and SHR by the value. -/
theorem wordFunctionsBitByBit : Obligations.WordFunctionsBitByBit :=
  ⟨fun x _ _ hn hn32 hi => rotr_getLsbD x hn hn32 hi,
    fun x n => (BitVec.toNat_ushiftRight x n).trans (Nat.shiftRight_eq_div_pow x.toNat n),
    ch_getLsbD, maj_getLsbD⟩

/-! ### The tag and the digests -/

/-- The bytes of a little-endian word are the bytes it was made from (R10). -/
theorem bytesLE32_le32 (b0 b1 b2 b3 : Byte) : bytesLE32 (le32 b0 b1 b2 b3) = [b0, b1, b2, b3] := by
  have above8 (i : Nat) : (le32 b0 b1 b2 b3).extractLsb' (8 + i) 8 = (b3 ++ b2 ++ b1).extractLsb' i 8 :=
    extractLsb'_append_above _ _
  have above16 (i : Nat) :
      (le32 b0 b1 b2 b3).extractLsb' (8 + (8 + i)) 8 = (b3 ++ b2).extractLsb' i 8 :=
    (above8 _).trans (extractLsb'_append_above _ _)
  have h0 : (le32 b0 b1 b2 b3).extractLsb' 0 8 = b0 := BitVec.extractLsb'_append_eq_right
  have h1 : (le32 b0 b1 b2 b3).extractLsb' 8 8 = b1 :=
    (above8 0).trans BitVec.extractLsb'_append_eq_right
  have h2 : (le32 b0 b1 b2 b3).extractLsb' 16 8 = b2 :=
    (above16 0).trans BitVec.extractLsb'_append_eq_right
  have h3 : (le32 b0 b1 b2 b3).extractLsb' 24 8 = b3 :=
    (above16 8).trans BitVec.extractLsb'_append_eq_left
  rw [bytesLE32, h0, h1, h2, h3]

/-- The first four bytes of a byte string that has them. -/
theorem take_four_eq (bs : List Byte) (h : 4 ≤ bs.length) :
    bs.take 4 = [bs.getD 0 0, bs.getD 1 0, bs.getD 2 0, bs.getD 3 0] := by
  match bs with
  | _ :: _ :: _ :: _ :: _ => rfl

/-- Settles O44: the tag is made little-endian from the first four bytes, and read back so. -/
theorem headerBytesAreTheDigestPrefix : Obligations.HeaderBytesAreTheDigestPrefix := by
  intro m
  have hlength : (dsha256 m).length = 32 := digestBytes_length _
  rw [tag32, bytesLE32_le32, take_four_eq _ (by omega)]

/-- Settles O45: the two branches of `checksum`. -/
theorem checksumDefinedUpToTheLimit : Obligations.ChecksumDefinedUpToTheLimit := by
  intro m
  by_cases hm : m.length ≤ Config.maxLen
  · have hsome : checksum m = some (tag32 m) := if_pos hm
    exact ⟨iff_of_true (congrArg Option.isSome hsome) hm, fun _ => hsome⟩
  · have hnone : checksum m = none := if_neg hm
    exact ⟨iff_of_false (by simp [hnone]) hm, fun h => absurd h hm⟩

/-- The tag from the words of the first pass, by the second pass alone (R79, R81). -/
theorem tag32_of_sha256Words {m : List Byte} {d : HashState} (h : sha256Words m = d) :
    tag32 m = bswap32 (sha256Words (digestBytes d))[0] := by
  rw [tagIsTheSwappedFirstWord, sha256, h]

/-- Settles O47: one pass over each message, and the second pass over the digests printed for it. -/
theorem knownDigestsAndTags : Obligations.KnownDigestsAndTags := by
  have hempty : sha256Words [] = #v[0xE3B0C442, 0x98FC1C14, 0x9AFBF4C8, 0x996FB924,
      0x27AE41E4, 0x649B934C, 0xA495991B, 0x7852B855] := by decide +kernel
  have habc : sha256Words [0x61, 0x62, 0x63] = #v[0xBA7816BF, 0x8F01CFEA, 0x414140DE, 0x5DAE2223,
      0xB00361A3, 0x96177A9C, 0xB410FF61, 0xF20015AD] := by decide +kernel
  refine ⟨hempty, habc, ?_, ?_⟩
  · rw [tag32_of_sha256Words hempty]; decide +kernel
  · rw [tag32_of_sha256Words habc]; decide +kernel

end Sys2Proof.Machine

/-! PROOFS. Several engines (60_exceptions R112) and the assembler (30_encoding R62, R63). -/

namespace Sys2Proof.Machine

/-! ### Several engines -/

/-- A step of one engine among several: it goes on by its own step, the others keep their state. -/
theorem stepInstance_next (engines : List State) (k : Nat) :
    ∃ es, stepInstance engines k = .next es ∧ es.length = engines.length ∧
      (∀ j, j ≠ k → es[j]? = engines[j]?) ∧
      ∀ s, engines[k]? = some s → ∃ t, step s = .next t ∧ es[k]? = some t := by
  unfold stepInstance
  cases hk : engines[k]? with
  | none => exact ⟨engines, rfl, rfl, fun _ _ => rfl, by simp⟩
  | some s =>
    obtain ⟨t, ht⟩ := everyStateHasANextState s
    obtain ⟨hlt, -⟩ := List.getElem?_eq_some_iff.mp hk
    refine ⟨engines.set k t, by simp only [ht], List.length_set,
      fun j hj => List.getElem?_set_ne hj.symm, ?_⟩
    rintro _ ⟨⟩
    exact ⟨t, ht, List.getElem?_set_self hlt⟩

/-- Settles O53, by induction on the schedule: its first step is the first of one engine's own steps. -/
theorem instancesComputeAlone : Obligations.InstancesComputeAlone := by
  intro engines schedule
  induction schedule generalizing engines with
  | nil => exact ⟨engines, rfl, rfl, fun _ s hs => ⟨s, rfl, hs⟩⟩
  | cons k rest ih =>
    obtain ⟨es, hes, hlength, hothers, hown⟩ := stepInstance_next engines k
    obtain ⟨fs, hfs, hlength', halone⟩ := ih es
    refine ⟨fs, by simp only [runSchedule, hes, hfs], hlength'.trans hlength, fun j s hs => ?_⟩
    by_cases hj : j = k
    · subst hj
      obtain ⟨t, ht, hest⟩ := hown s hs
      rw [List.count_cons_self, run_succ _ _ _ ht]
      exact halone j t hest
    · rw [List.count_cons_of_ne (Ne.symm hj)]
      exact halone j s ((hothers j hj).trans hs)

/-! ### The assembler -/

/-- The word that pushes a byte value, as a number (R56). -/
theorem pushCommand_eq {c : Nat} (hc : c < 256) : pushCommand c = BitVec.ofNat 16 (0x2000 + c) := by
  refine BitVec.eq_of_toNat_eq ?_
  rw [pushCommand, encode_push_toNat, BitVec.toNat_ofNat, BitVec.toNat_ofNat]
  omega

/-- A character of a text is a byte value (R63). -/
theorem lt_of_textAllowed {text : List Nat} (h : textAllowed text = true) {c : Nat} (hc : c ∈ text) :
    c < 256 := by
  have hprintable := List.all_eq_true.mp h c hc
  simp only [printable, Bool.and_eq_true, decide_eq_true_eq] at hprintable
  omega

/-- The words of CHECKSUM are those of the transaction on its bytes (R63, R118). -/
theorem issueWords_checksumCommands (bytes : List Nat) :
    issueWords (checksumCommands bytes) = transaction (bytes.map (BitVec.ofNat 8)) := by
  rw [checksumCommands, transaction, List.map_map]
  rfl

/-- The pairs of a list of digits. -/
def digitPairs : List Nat → List (Nat × Nat)
  | d :: d' :: ds => (d, d') :: digitPairs ds
  | _ => []

/-- The bytes of the digits are the values of their pairs. -/
theorem pairBytes_eq (digits : List Nat) :
    pairBytes digits = (digitPairs digits).map fun p => 16 * p.1 + p.2 := by
  induction digits using digitPairs.induct with
  | case1 d d' ds ih => simp [pairBytes, digitPairs, ih]
  | case2 digits hshort => simp [pairBytes, digitPairs]

/-- An even number of digits is its pairs one after another. -/
theorem flatMap_digitPairs :
    ∀ {digits : List Nat}, digits.length % 2 = 0 →
      digits = (digitPairs digits).flatMap fun p => [p.1, p.2]
  | [], _ => rfl
  | [_], hodd => absurd hodd (by simp)
  | d :: d' :: ds, heven => by
    have hrest : ds.length % 2 = 0 := by
      rw [List.length_cons, List.length_cons] at heven; omega
    have ih := flatMap_digitPairs hrest
    rw [digitPairs, List.flatMap_cons, ← ih]
    rfl

/-- Well-formed digits are pairs of digits below 16 (R63). -/
theorem digitPairs_of_digitsAllowed {digits : List Nat} (h : digitsAllowed digits = true) :
    digits = (digitPairs digits).flatMap (fun p => [p.1, p.2]) ∧
      ∀ p ∈ digitPairs digits, p.1 < 16 ∧ p.2 < 16 := by
  obtain ⟨heven, hall⟩ := Bool.and_eq_true_iff.mp h
  have hpairs := flatMap_digitPairs (beq_iff_eq.mp heven)
  have hdigit (d : Nat) (hd : d ∈ digits) : d < 16 :=
    of_decide_eq_true (List.all_eq_true.mp hall d hd)
  refine ⟨hpairs, fun p hp => ⟨hdigit _ ?_, hdigit _ ?_⟩⟩
  all_goals
    rw [hpairs]
    exact List.mem_flatMap.mpr ⟨p, hp, by simp⟩

/-- The word that pushes the value of a pair of digits. -/
theorem pushCommand_pair {p : Nat × Nat} (h : p.1 < 16 ∧ p.2 < 16) :
    pushCommand (16 * p.1 + p.2) = BitVec.ofNat 16 (0x2000 + 16 * p.1 + p.2) := by
  rw [pushCommand_eq (by omega), Nat.add_assoc]

/-- Settles O54: texts by their characters, digits by their pairs. -/
theorem pseudoInstructionsExpand : Obligations.PseudoInstructionsExpand := by
  refine ⟨fun text h => ?pushs, fun text _ => ?checksumText, fun b n h => ?pushn,
    fun digits h => ?pushx, fun digits h => ?checksumHex⟩
  case pushs =>
    exact List.map_congr_left fun c hc => pushCommand_eq (lt_of_textAllowed h hc)
  case checksumText => exact issueWords_checksumCommands text
  case pushn =>
    rw [expandLine, pushCommand_eq (of_decide_eq_true h)]
  case pushx =>
    obtain ⟨hpairs, hdigits⟩ := digitPairs_of_digitsAllowed h
    refine ⟨digitPairs digits, hpairs, hdigits, ?_⟩
    rw [expandLine, pairBytes_eq, List.map_map]
    exact List.map_congr_left fun p hp => pushCommand_pair (hdigits p hp)
  case checksumHex =>
    obtain ⟨hpairs, hdigits⟩ := digitPairs_of_digitsAllowed h
    refine ⟨digitPairs digits, hpairs, hdigits, ?_⟩
    rw [expandLine, issueWords_checksumCommands, pairBytes_eq, List.map_map]
    rfl

/-- Settles O55, by assembling each line. -/
theorem assemblerLinesEncode : Obligations.AssemblerLinesEncode := by
  refine ⟨?nop, ?init, ?pushDecimal, ?pushHexadecimal, ?pushCharacter, ?final, ?rdtag, ?rdstat, ?rst,
    ?word, ?comment, ?outOfRange⟩
  all_goals decide +kernel

end Sys2Proof.Machine

/-! PROOFS. The port (30_encoding R51, 70_reset R114 to R124): its pins by channel, what a cycle does on
each channel, and every run of it as a run of whole commands and resets. -/

namespace Sys2Proof.Machine

/-! ### The pins, by channel -/

/-- While `rst_n` is 0 the port is silent (R114). -/
theorem enginePins_inReset (p : Port) : enginePins p false = quietPins p false false := by
  unfold enginePins
  cases p.channel <;> rfl

section Pins
variable {p : Port}

theorem enginePins_ready (hc : p.channel = .ready) : enginePins p true = quietPins p true true := by
  simp only [enginePins, hc]

theorem enginePins_presenting {w : CmdWord} (hc : p.channel = .presenting w) :
    enginePins p true = ⟨false, true, (responseTo w p.engine).err, (responseTo w p.engine).data⟩ := by
  simp only [enginePins, hc]

/-- On the other channels the port is silent (R51). -/
theorem enginePins_quiet (hready : p.channel ≠ .ready) (hquiet : ∀ w, p.channel ≠ .presenting w) :
    enginePins p true = quietPins p true false := by
  unfold enginePins
  split
  next h => exact absurd h hready
  next w _ h => exact absurd h (hquiet w)
  next => rfl

/-- `cmd_ready` is 1 exactly on a ready port (R51). -/
theorem cmdReady_iff : (enginePins p true).cmdReady = true ↔ p.channel = .ready := by
  unfold enginePins
  cases p.channel <;> simp [quietPins]

/-- `rsp_valid` is 1 exactly while a response is presented (R51). -/
theorem rspValid_iff : (enginePins p true).rspValid = true ↔ ∃ w, p.channel = .presenting w := by
  unfold enginePins
  cases p.channel <;> simp [quietPins]

end Pins

/-! ### One cycle, by channel -/

section Cycle
variable {p q : Port} {pins : HostPins}

/-- A cycle of reset (R114). -/
theorem portCycle_inReset (hr : pins.rstN = false) :
    portCycle p pins =
      .next (p.after (hardwareReset p.engine) (settle (Config.resetDelay p.serial p.engine p.cycle))
        none) := by
  simp [portCycle, hr]

theorem portCycle_settling (hr : pins.rstN = true) (h : portCycle p pins = .next q) {n : Nat}
    (hc : p.channel = .settling n) : q = p.after p.engine (settle n) (offerOf pins) := by
  obtain ⟨-, -, hcases⟩ := (portCycle_cases h).resolve_left (by simp [hr])
  simpa [hc] using hcases

theorem portCycle_idle (hr : pins.rstN = true) (h : portCycle p pins = .next q)
    (hc : p.channel = .ready) (hv : pins.cmdValid = false) :
    ∃ n, q = p.after p.engine (settle n) none := by
  obtain ⟨-, -, hcases⟩ := (portCycle_cases h).resolve_left (by simp [hr])
  simpa [hc, hv] using hcases

theorem portCycle_accept (hr : pins.rstN = true) (h : portCycle p pins = .next q)
    (hc : p.channel = .ready) (hv : pins.cmdValid = true) :
    ∃ n, q = p.after p.engine (answerAfter pins.cmd n) none := by
  obtain ⟨-, -, hcases⟩ := (portCycle_cases h).resolve_left (by simp [hr])
  simpa [hc, hv] using hcases

theorem portCycle_working (hr : pins.rstN = true) (h : portCycle p pins = .next q) {n : Nat}
    {w : CmdWord} (hc : p.channel = .working n w) :
    q = p.after p.engine (answerAfter w n) (offerOf pins) := by
  obtain ⟨-, -, hcases⟩ := (portCycle_cases h).resolve_left (by simp [hr])
  simpa [hc] using hcases

theorem portCycle_held (hr : pins.rstN = true) (h : portCycle p pins = .next q) {w : CmdWord}
    (hc : p.channel = .presenting w) (hv : pins.rspReady = false) :
    q = p.after p.engine (.presenting w) (offerOf pins) := by
  obtain ⟨-, -, hcases⟩ := (portCycle_cases h).resolve_left (by simp [hr])
  simpa [hc, hv] using hcases

theorem portCycle_delivered (hr : pins.rstN = true) (h : portCycle p pins = .next q) {w : CmdWord}
    (hc : p.channel = .presenting w) (hv : pins.rspReady = true) :
    ∃ t, executeWord w p.engine = .next t ∧ ∃ n, q = p.after t (settle n) (offerOf pins) := by
  obtain ⟨-, -, hcases⟩ := (portCycle_cases h).resolve_left (by simp [hr])
  simpa [hc, hv] using hcases

/-! ### The handshake -/

theorem offerOf_eq_some_iff {w : CmdWord} :
    offerOf pins = some w ↔ pins.cmdValid = true ∧ pins.cmd = w := by
  simp [offerOf]

/-- The host breaks the handshake when it had to hold a word and does not offer it (R51). -/
theorem breaksHold_iff {offered : Option CmdWord} :
    breaksHold offered pins = true ↔
      ∃ w, offered = some w ∧ ¬(pins.cmdValid = true ∧ pins.cmd = w) := by
  cases offered with
  | none => simp [breaksHold]
  | some w =>
    rw [breaksHold, bne_iff_ne, ne_eq, offerOf_eq_some_iff]
    simp

/-- A broken handshake outside reset is refused (93 U14). -/
theorem portCycle_refused (hr : pins.rstN = true) (hb : breaksHold p.offered pins = true) :
    portCycle p pins = .refused .handshakeBroken := by
  simp [portCycle, hr, hb]

/-- A delivery has a next port, since every word has a next state (R86). -/
theorem deliver_next (w : CmdWord) : ∃ q, deliver p pins (executeWord w p.engine) = .next q := by
  obtain ⟨t, ht⟩ := executeWord_next w p.engine
  rw [ht]
  exact ⟨_, rfl⟩

/-- Every other cycle has a next port. -/
theorem portCycle_next (h : pins.rstN = true → breaksHold p.offered pins = false) :
    ∃ q, portCycle p pins = .next q := by
  cases hr : pins.rstN with
  | false => exact ⟨_, portCycle_inReset hr⟩
  | true =>
    have hb := h hr
    cases hc : p.channel with
    | settling n => exact ⟨_, by simp [portCycle, hr, hb, hc]; rfl⟩
    | ready => exact ⟨_, by simp [portCycle, hr, hb, hc]; rfl⟩
    | working n w => exact ⟨_, by simp [portCycle, hr, hb, hc]; rfl⟩
    | presenting w =>
      cases hv : pins.rspReady with
      | false => exact ⟨_, by simp [portCycle, hr, hb, hc, hv]; rfl⟩
      | true => simpa [portCycle, hr, hb, hc, hv] using deliver_next w

/-- The word to be held after a cycle is the one offered on a port that was not ready (R51); reset ends
the duty (log entry 6). -/
theorem portCycle_offered (h : portCycle p pins = .next q) :
    q.offered = if pins.rstN = true ∧ p.channel ≠ .ready then offerOf pins else none := by
  cases hr : pins.rstN with
  | false =>
    cases (portCycle_inReset hr).symm.trans h
    simp
  | true =>
    cases hc : p.channel with
    | settling n => simp [portCycle_settling hr h hc]
    | ready =>
      cases hv : pins.cmdValid with
      | false =>
        obtain ⟨n, rfl⟩ := portCycle_idle hr h hc hv
        simp
      | true =>
        obtain ⟨n, rfl⟩ := portCycle_accept hr h hc hv
        simp
    | working n w => simp [portCycle_working hr h hc]
    | presenting w =>
      cases hv : pins.rspReady with
      | false => simp [portCycle_held hr h hc hv]
      | true =>
        obtain ⟨t, -, n, rfl⟩ := portCycle_delivered hr h hc hv
        simp

end Cycle

/-- The channel before `cmd_ready` rises or when it has. -/
theorem settle_ready_or_settling (n : Nat) : settle n = .ready ∨ ∃ k, settle n = .settling k := by
  obtain ⟨-, hready⟩ | ⟨k, -, hsettling⟩ := settle_cases n
  · exact .inl hready
  · exact .inr ⟨k, hsettling⟩

/-- Settles O48: the pins and the cycle of reset. -/
theorem resetSilencesThePort : Obligations.ResetSilencesThePort := by
  intro p pins hr
  rw [hr, enginePins_inReset]
  exact ⟨rfl, rfl, _, portCycle_inReset hr, sameRegisters_resetRegisters p.engine, rfl,
    settle_ready_or_settling _, rfl⟩

/-- Settles O52: a cycle is refused or has a next port, and the held word is that of
`portCycle_offered`. -/
theorem portRefusesOnlyBrokenHandshakes : Obligations.PortRefusesOnlyBrokenHandshakes := by
  intro p pins
  have htotal : (pins.rstN = true ∧ breaksHold p.offered pins = true ∧
      portCycle p pins = .refused .handshakeBroken) ∨
      (¬(pins.rstN = true ∧ breaksHold p.offered pins = true) ∧ ∃ q, portCycle p pins = .next q) := by
    by_cases hbroken : pins.rstN = true ∧ breaksHold p.offered pins = true
    · obtain ⟨hr, hb⟩ := hbroken
      exact .inl ⟨hr, hb, portCycle_refused hr hb⟩
    · exact .inr ⟨hbroken, portCycle_next fun hr => by simpa [hr] using hbroken⟩
  rw [← breaksHold_iff]
  refine ⟨?refused, ?fault, fun q w h => ?held⟩
  case refused =>
    obtain ⟨hr, hb, hcycle⟩ | ⟨hkept, q, hcycle⟩ := htotal
    · exact iff_of_true ⟨_, hcycle⟩ ⟨hr, hb⟩
    · exact iff_of_false (by simp [hcycle]) hkept
  case fault =>
    obtain ⟨-, -, hcycle⟩ | ⟨-, q, hcycle⟩ := htotal <;> simp [hcycle]
  case held =>
    have hready : (enginePins p true).cmdReady = false ↔ p.channel ≠ .ready := by
      rw [← Bool.not_eq_true, cmdReady_iff]
    rw [portCycle_offered h, hready, Option.ite_none_right_eq_some, offerOf_eq_some_iff]
    exact ⟨fun ⟨⟨hr, hc⟩, hv, hw⟩ => ⟨hr, hv, hw, hc⟩, fun ⟨hr, hv, hw, hc⟩ => ⟨⟨hr, hc⟩, hv, hw⟩⟩

/-! ### At most one command in progress -/

/-- Settles O49, channel by channel. -/
theorem oneCommandInProgress : Obligations.OneCommandInProgress := by
  intro p q pins hr h
  refine ⟨?never, ?accept, fun hc => ?ready, fun n hc => ?settling, fun n w hc => ?working,
    fun w hc => ?presenting⟩
  case never =>
    rw [cmdReady_iff, rspValid_iff]
    rintro ⟨hc, w, hc'⟩
    cases hc.symm.trans hc'
  case accept =>
    rw [cmdReady_iff]
    intro hc hv
    obtain ⟨n, rfl⟩ := portCycle_accept hr h hc hv
    refine ⟨rfl, ?_⟩
    obtain ⟨-, hpresenting⟩ | ⟨k, -, hworking⟩ := answerAfter_cases pins.cmd n
    · exact .inl hpresenting
    · exact .inr ⟨k, hworking⟩
  case ready =>
    refine ⟨cmdReady_iff.mpr hc, fun hv => ?_⟩
    obtain ⟨n, rfl⟩ := portCycle_idle hr h hc hv
    exact ⟨rfl, settle_ready_or_settling n⟩
  case settling =>
    rw [enginePins_quiet (by simp [hc]) (by simp [hc]), portCycle_settling hr h hc]
    exact ⟨rfl, rfl, rfl, settle_cases n⟩
  case working =>
    rw [enginePins_quiet (by simp [hc]) (by simp [hc]), portCycle_working hr h hc]
    exact ⟨rfl, rfl, answerAfter_cases w n⟩
  case presenting =>
    rw [enginePins_presenting hc]
    refine ⟨rfl, rfl, fun hv => ?_, fun hv => ?_⟩
    · rw [portCycle_held hr h hc hv]
      exact ⟨rfl, rfl, enginePins_presenting rfl⟩
    · obtain ⟨t, ht, n, rfl⟩ := portCycle_delivered hr h hc hv
      obtain ⟨hresponses, -⟩ := executeWord_response ht
      exact ⟨ht, settle_ready_or_settling n, hresponses⟩

/-! ### Every command finishes -/

/-- A run is one cycle and the rest of the run. -/
theorem portRun_cons {p q : Port} {pins : HostPins} (h : portCycle p pins = .next q)
    (rest : List HostPins) : portRun p (pins :: rest) = portRun q rest := by
  simp only [portRun, h]

/-- The host offers no word and takes the response. -/
def takingPins : HostPins := ⟨true, false, 0, true⟩

/-- A host that has no word to hold may take responses. -/
theorem portCycle_taking {p : Port} (ho : p.offered = none) :
    ∃ q, portCycle p takingPins = .next q ∧ q.offered = none := by
  obtain ⟨q, h⟩ := portCycle_next (p := p) (pins := takingPins) (by simp [ho, breaksHold])
  refine ⟨q, h, ?_⟩
  rw [portCycle_offered h, show offerOf takingPins = none from rfl, ite_self]

/-- `cmd_ready` rises after the cycles it needs (R124). -/
theorem portRun_settle {p : Port} (ho : p.offered = none) {k : Nat} (hc : p.channel = settle k) :
    ∃ n q, portRun p (List.replicate n takingPins) = .next q ∧ q.channel = .ready ∧
      q.engine = p.engine := by
  induction k generalizing p with
  | zero => exact ⟨0, p, rfl, hc, rfl⟩
  | succ k ih =>
    obtain ⟨q, h, ho'⟩ := portCycle_taking ho
    obtain rfl := portCycle_settling rfl h hc
    obtain ⟨n, r, hrun, hready, hengine⟩ := ih ho' rfl
    exact ⟨n + 1, r, (portRun_cons h _).trans hrun, hready, hengine⟩

/-- A word in progress is answered after the cycles it needs, and then `cmd_ready` rises (R123, R124). -/
theorem portRun_answer {p : Port} (ho : p.offered = none) {w : CmdWord} {k : Nat}
    (hc : p.channel = answerAfter w k) :
    ∃ n q, portRun p (List.replicate n takingPins) = .next q ∧ q.channel = .ready ∧
      executeWord w p.engine = .next q.engine := by
  induction k generalizing p with
  | zero =>
    obtain ⟨q, h, ho'⟩ := portCycle_taking ho
    obtain ⟨t, ht, m, rfl⟩ := portCycle_delivered rfl h hc rfl
    obtain ⟨n, r, hrun, hready, hengine⟩ := portRun_settle ho' rfl
    exact ⟨n + 1, r, (portRun_cons h _).trans hrun, hready, hengine ▸ ht⟩
  | succ k ih =>
    obtain ⟨q, h, ho'⟩ := portCycle_taking ho
    obtain rfl := portCycle_working rfl h hc
    obtain ⟨n, r, hrun, hready, hword⟩ := ih ho' rfl
    exact ⟨n + 1, r, (portRun_cons h _).trans hrun, hready, hword⟩

/-- Settles O50: the word is accepted in the first cycle, and the rest is `portRun_answer`. -/
theorem everyAcceptedCommandFinishes : Obligations.EveryAcceptedCommandFinishes := by
  intro p w hc ho
  have hkept : breaksHold p.offered ⟨true, true, w, false⟩ = false := by
    obtain ho | ho := ho <;> simp [ho, breaksHold, offerOf]
  obtain ⟨q, h⟩ := portCycle_next fun _ => hkept
  obtain ⟨k, rfl⟩ := portCycle_accept rfl h hc rfl
  obtain ⟨n, r, hrun, hready, hword⟩ :=
    portRun_answer (p := p.after p.engine (answerAfter w k) none) rfl rfl
  exact ⟨n, r, (portRun_cons h _).trans hrun, hready, hword⟩

/-! ### A run of the port is a run of whole commands and resets -/

/-- The word is accepted and its response is not delivered. -/
def InProgress (c : Channel) (w : CmdWord) : Prop := c = .presenting w ∨ ∃ n, c = .working n w

/-- The host offers the word outside reset. -/
def Offers (x : HostPins) (w : CmdWord) : Prop := x.rstN = true ∧ x.cmdValid = true ∧ x.cmd = w

@[simp] theorem not_inProgress_settle (n : Nat) (w : CmdWord) : ¬InProgress (settle n) w := by
  cases n <;> simp [InProgress, settle]

/-- Only the word that is worked on is in progress. -/
theorem eq_of_inProgress_answerAfter {v w : CmdWord} {n : Nat} (h : InProgress (answerAfter v n) w) :
    w = v := by
  cases n <;> simpa [InProgress, answerAfter, eq_comm] using h

/-- What one cycle is at transaction level: a reset, the command whose response is delivered, or
nothing. -/
def cycleActions (p : Port) (pins : HostPins) : List HostAction :=
  match pins.rstN, p.channel, pins.rspReady with
  | false, _, _ => [.hardwareReset]
  | true, .presenting w, true => [.command w]
  | _, _, _ => []

section Cycle
variable {p q : Port} {pins : HostPins}

/-- A cycle does to the engine what its actions do. -/
theorem runActions_cycleActions (h : portCycle p pins = .next q) (later : List HostAction) :
    runActions p.engine (cycleActions p pins ++ later) = runActions q.engine later := by
  obtain ⟨hr, n, rfl⟩ | ⟨hr, -, ⟨n, hc, rfl⟩ | ⟨hc, -, n, rfl⟩ | ⟨hc, -, n, rfl⟩ | ⟨n, w, hc, rfl⟩ |
    ⟨w, hc, hv, rfl⟩ | ⟨w, t, n, hc, hv, ht, rfl⟩⟩ := portCycle_cases h
  · have has : cycleActions p pins = [.hardwareReset] := by simp [cycleActions, hr]
    exact has ▸ runActions_hardwareReset p.engine later
  · simp [cycleActions, hr, hc]
  · simp [cycleActions, hr, hc]
  · simp [cycleActions, hr, hc]
  · simp [cycleActions, hr, hc]
  · simp [cycleActions, hr, hc, hv]
  · have has : cycleActions p pins = [.command w] := by simp [cycleActions, hr, hc, hv]
    exact has ▸ runActions_word ht later

/-- A cycle is a reset exactly if `rst_n` is 0 in it. -/
theorem count_cycleActions (p : Port) (pins : HostPins) :
    (cycleActions p pins).count .hardwareReset = ([pins].filter fun x => !x.rstN).length := by
  unfold cycleActions
  split
  next hr => simp [hr]
  next hr _ _ => simp [hr]
  next hr _ =>
    have hr' : pins.rstN = true := Bool.eq_true_of_not_eq_false hr
    simp [hr']

/-- A command of a cycle was in progress before it. -/
theorem inProgress_of_mem_cycleActions {w : CmdWord} (hw : .command w ∈ cycleActions p pins) :
    InProgress p.channel w := by
  unfold cycleActions at hw
  split at hw
  next => simp at hw
  next v _ hc _ =>
    obtain rfl : w = v := by simpa using hw
    exact .inl hc
  next => simp at hw

/-- A word in progress after a cycle was so before it or is offered in it. -/
theorem inProgress_of_portCycle (h : portCycle p pins = .next q) {w : CmdWord}
    (hw : InProgress q.channel w) : Offers pins w ∨ InProgress p.channel w := by
  obtain ⟨-, n, rfl⟩ | ⟨hr, -, ⟨n, -, rfl⟩ | ⟨-, -, n, rfl⟩ | ⟨-, hv, n, rfl⟩ | ⟨n, v, hc, rfl⟩ |
    ⟨v, hc, -, rfl⟩ | ⟨v, t, n, -, -, -, rfl⟩⟩ := portCycle_cases h
  · exact absurd hw (not_inProgress_settle n w)
  · exact absurd hw (not_inProgress_settle n w)
  · exact absurd hw (not_inProgress_settle n w)
  · exact .inl ⟨hr, hv, (eq_of_inProgress_answerAfter hw).symm⟩
  · obtain rfl := eq_of_inProgress_answerAfter hw
    exact .inr (.inr ⟨n, hc⟩)
  · obtain rfl : w = v := eq_of_inProgress_answerAfter (n := 0) hw
    exact .inr (.inl hc)
  · exact absurd hw (not_inProgress_settle n w)

/-- A run that has a next port has one after its first cycle. -/
theorem portRun_cons_cases {rest : List HostPins} (h : portRun p (pins :: rest) = .next q) :
    ∃ r, portCycle p pins = .next r ∧ portRun r rest = .next q := by
  rw [portRun] at h
  split at h
  next r hr => exact ⟨r, hr, h⟩
  next => cases h
  next => cases h

end Cycle

/-- Settles O51, by induction on the run: the actions of its first cycle and then those of the rest. -/
theorem portRunIsACommandRun : Obligations.PortRunIsACommandRun := by
  intro pins p q h
  induction pins generalizing p with
  | nil =>
    cases h
    exact ⟨[], runActions_nil _, rfl, fun w hw => absurd hw List.not_mem_nil⟩
  | cons x xs ih =>
    obtain ⟨r, hcycle, hrest⟩ := portRun_cons_cases h
    obtain ⟨as, hrun, hcount, horigin⟩ := ih r hrest
    refine ⟨cycleActions p x ++ as, (runActions_cycleActions hcycle as).trans hrun, ?_, fun w hw => ?_⟩
    · rw [List.count_append, count_cycleActions, hcount, ← List.length_append, ← List.filter_append]
      rfl
    · obtain hnow | hlater := List.mem_append.mp hw
      · exact .inr (inProgress_of_mem_cycleActions hnow)
      · obtain ⟨y, hy, hoffers⟩ | hprogress := horigin w hlater
        · exact .inl ⟨y, List.mem_cons_of_mem x hy, hoffers⟩
        · obtain hoffers | hbefore := inProgress_of_portCycle hcycle hprogress
          · exact .inl ⟨x, List.mem_cons_self, hoffers⟩
          · exact .inr hbefore

end Sys2Proof.Machine
